-- ==== Sys2Proof/Word.lean ====
section
/-! DEFINITION. The word types of WAVEGEN: 32-bit registers, 8-bit stream bytes, 5-bit word addresses
(00_scope.md R5, R8; 10_state.md R21). -/

namespace Sys2Proof

/-- One register of the window, and one command word: `u32` of R8. -/
abbrev Word := BitVec 32

/-- One byte of the output stream (R5: stream data width 8 bits). -/
abbrev Byte := BitVec 8

/-- The word address of the register port (R5: 5 bits, 32 words). -/
abbrev RegIndex := BitVec 5

end Sys2Proof
end

