-- ==== Sys2Proof/Config.lean ====
section
/-! DEFINITION. The implementation parameters of WAVEGEN (00_scope.md R5) and the values the spec leaves open. -/

namespace Sys2Proof

/-- SINE_IMPL (R5, R103): how the sine unit computes a sample. `approx` carries the two parameters that come with it:
SINE_FN, the implementation's function of (A, p, sr), and SINE_TOL, a real ≥ 0. SINE_TOL changes no step; it is the bound
SINE_FN must meet (R107; `AdmittedSine` in Safety.lean). -/
inductive SineImpl where
  | exact
  | approx (sineFn : Nat → Nat → Nat → Int) (sineTol : NNReal)

/-- The parameters of R5: SINE_IMPL, with SINE_FN and SINE_TOL when it is APPROX, and SG_LANES. -/
structure Params where
  sine    : SineImpl
  /-- SG_LANES. -/
  lanes   : Nat
  /-- SG_LANES is at least 1 (R5). -/
  oneLane : 1 ≤ lanes

namespace Config

/-- SINE_FN of an approximate machine: opaque, as R107 asks. -/
opaque sineFn : Nat → Nat → Nat → Int

/-- SINE_TOL of an approximate machine: opaque, some real ≥ 0 (R5, R107). -/
noncomputable opaque sineTol : NNReal

/-- `out_data` while `out_valid = 0`, at a given clock edge: any value (93_implementation_defined.md U11). Log 6. -/
opaque freeOutData : Nat → Byte

/-- `out_last` while `out_valid = 0`, at a given clock edge: any value (U11). Log 6. -/
opaque freeOutLast : Nat → Bool

/-- DESIGN CHOICE (log 3, log 8): the machine of `step` is WAVEGEN-1/EXACT, the spec's default (R2, R5),
with one lane (93_implementation_defined.md U2). -/
def device : Params := { sine := .exact, lanes := 1, oneLane := Nat.le_refl 1 }

/-- WAVEGEN-1/APPROX over the opaque SINE_FN and SINE_TOL (R107). -/
noncomputable def approxDevice : Params :=
  { sine := .approx sineFn sineTol, lanes := 1, oneLane := Nat.le_refl 1 }

end Config

end Sys2Proof
end

