-- ==== Sys2Proof/Syntax.lean ====
section
/-! DEFINITION. The commands of WAVEGEN (30_encoding.md R82, spec/opcode_table.json) and the host-program
notation of R85 and R86. -/

namespace Sys2Proof

/-- The five commands of R82. No command has an operand field (R83). -/
inductive Instr where
  | nop
  | start
  | sample
  | header
  | pack
  deriving DecidableEq, Repr

/-- The register names of the map of 10_state.md R21. -/
inductive RegName where
  | ctrl | cmd | status | sampleRate | bits | freq | amplitude | numSamples | sampleIndex
  | sampleResult | packIn | packOut | sampleCount | dataBytes | hdrBytes | fmtConst
  | hdr (k : Fin 11)
  deriving DecidableEq, Repr

/-- `<reg>` of R85: a register name, or a word index `w0..w31`. -/
inductive RegRef where
  | name (r : RegName)
  | index (w : Nat)
  deriving DecidableEq, Repr

/-- What a line of a listing does on the bus (R86): W or R. -/
inductive BusDir where
  | write
  | read
  deriving DecidableEq, Repr

/-- The triple `(W|R, w, data)` of a listing (R86); `data` is absent where the operation names none (`–` of
95_test_vectors.md, Part 3). -/
structure Listing where
  dir  : BusDir
  word : BitVec 5
  data : Option Word
  deriving DecidableEq, Repr

/-- One line of a host program (R85), and the pseudo-instructions of R86. -/
inductive HostOp where
  | wr (reg : RegRef) (value : Nat)
  | rd (reg : RegRef) (expected : Option Nat)
  | poll (reg : RegRef) (mask value : Nat)
  | sink (n : Nat)
  | sinkErr
  | cmd (i : Instr)
  | wait
  | ack
  deriving DecidableEq, Repr

end Sys2Proof
end

