-- ==== Sys2Proof/WellFormed.lean ====
section
/-! DEFINITION. Which terms of the syntax are programs of the spec. A command has no operand, so every `Instr` is well
formed; a host operation names one of the 32 words and carries values that fit 32 bits (R85, R21). -/

namespace Sys2Proof

/-- Every command is well formed: CMD32 has no operand field (R80, R83). -/
def Instr.wellFormed : Instr → Bool
  | .nop | .start | .sample | .header | .pack => true

/-- A word index is one of `w0..w31` (R85). -/
def RegRef.wellFormed : RegRef → Bool
  | .name _ => true
  | .index w => decide (w < 32)

/-- A `<value>` is a 32-bit word (R62, R85). -/
def valueFits (v : Nat) : Bool := decide (v < 2 ^ 32)

def HostOp.wellFormed : HostOp → Bool
  | .wr r v => r.wellFormed && valueFits v
  | .rd r e => r.wellFormed && e.all valueFits
  | .poll r m v => r.wellFormed && valueFits m && valueFits v
  | .cmd i => i.wellFormed
  | .sink _ | .sinkErr | .wait | .ack => true

end Sys2Proof
end

