-- ==== Sys2Proof/Decode.lean ====
section
/-! DEFINITION. The decoder of CMD words (30_encoding.md R80, R81), total on every 32-bit word, and the encoder. -/

namespace Sys2Proof

/-- Why a word is no command (R84). -/
inductive IllegalWord where
  /-- Bits 31:4 are not all 0. -/
  | reservedBits
  /-- The opcode is one of 0x5..0xF. -/
  | reservedOpcode
  deriving DecidableEq, Repr

/-- The decoder's verdict (R81). -/
inductive Decoded where
  | command (i : Instr)
  | illegal (why : IllegalWord)
  deriving DecidableEq, Repr

/-- Field `op`, bits 3:0 (R80). -/
def opField (v : Word) : BitVec 4 := v.extractLsb' 0 4

/-- Field `rsv`, bits 31:4 (R80). -/
def rsvField (v : Word) : BitVec 28 := v.extractLsb' 4 28

/-- The opcode map of R81. -/
def decodeOp (op : BitVec 4) : Decoded :=
  match op.toNat with
  | 0x0 => .command .nop
  | 0x1 => .command .start
  | 0x2 => .command .sample
  | 0x3 => .command .header
  | 0x4 => .command .pack
  | _ => .illegal .reservedOpcode

/-- `Decode(v)` of R81. -/
def decode (v : Word) : Decoded :=
  if rsvField v ≠ 0 then .illegal .reservedBits else decodeOp (opField v)

/-- The opcode of each command (R82). -/
def Instr.opcode : Instr → BitVec 4
  | .nop => 0x0
  | .start => 0x1
  | .sample => 0x2
  | .header => 0x3
  | .pack => 0x4

/-- The CMD32 word of a command: `rsv = 0` above the opcode (R80, R82). -/
def encode (i : Instr) : Word := (0 : BitVec 28) ++ i.opcode

/-- What the decoder reads from a table row's bits: a CMD word is one 32-bit bus write (R80), so the bits above `nbits`
are 0 and a number that does not fit the row is no command. -/
def decodeTableWord (nbits w : Nat) : Option Instr :=
  if nbits ≤ 32 ∧ w < 2 ^ nbits then
    match decode (BitVec.ofNat 32 w) with
    | .command i => some i
    | .illegal _ => none
  else none

end Sys2Proof
end

