-- ==== Sys2Proof/Machine/State.lean ====
section
/-! DEFINITION. The state of WAVEGEN as plain data (10_state.md R20), its reset value (70_reset_and_hazards.md R250), and
the reasons a step can stop. -/

namespace Sys2Proof.Machine

open Sys2Proof

/-- The machine never faults: WAVEGEN takes no traps (R231), has no misaligned access (R69) and no access error (R234), so
no fault has a constructor (DEDUCED, log 12). Safe: nothing is stopped that the spec lets go on. -/
inductive Fault where
  deriving DecidableEq, Repr

/-- The one refusal of the interface. -/
inductive Refusal where
  /-- Raised by an arm of `exec` whose command has no meaning yet; no arm does. Safe: it only stops. -/
  | notModelled (mnemonic : String)
  deriving DecidableEq, Repr

/-- What one step, one command or one bus write answers. -/
abbrev Outcome := Host.Outcome

/-- ERRCODE (60_exceptions.md R220); values 5–15 are never produced and have no constructor. -/
inductive ErrCode where
  | none | invalidArgument | overflow | ioFailure | illegalCommand
  deriving DecidableEq, Repr

/-- ERRCAUSE (R221); values 9–15 are never produced and have no constructor. -/
inductive ErrCause where
  | none | bitsIllegal | rateZero | countZero | nyquist | sizeOverflow | rateOverflow | sinkError | badOpcode
  deriving DecidableEq, Repr

/-- The sequencer state (R37). -/
inductive Seq where
  | idle | exec | stream
  deriving DecidableEq, Repr

/-- STATUS less BUSY, which is a function of the sequencer state (R24–R29). -/
structure Status where
  done     : Bool
  drop     : Bool
  errcode  : ErrCode
  errcause : ErrCause
  lastcmd  : BitVec 4
  deriving DecidableEq, Repr

/-- The configuration registers (R30–R36). -/
structure ConfigRegs where
  sampleRate  : Word
  bits        : Word
  freq        : Word
  amplitude   : BitVec 31
  numSamples  : Word
  sampleIndex : Word
  packIn      : Word
  deriving DecidableEq, Repr

/-- The command snapshot (R38): the CMD word and the copies of the configuration registers. -/
structure Snapshot where
  word : Word
  conf : ConfigRegs
  deriving DecidableEq, Repr

/-- The progress registers (R41–R43). -/
structure Progress where
  sampleCount : Word
  dataBytes   : Word
  hdrBytes    : BitVec 6
  deriving DecidableEq, Repr

/-- One sample a generator lane has computed ahead of the stream position (R51, R197). -/
structure Lane where
  index  : Nat
  sample : Int
  deriving DecidableEq, Repr

/-- One byte the sink has taken, with the end marker it came with (R66, R74). -/
structure SinkByte where
  data : Byte
  last : Bool
  deriving DecidableEq, Repr

/-- The host's access on the register port in one clock cycle: at most one (R64). -/
inductive HostAccess where
  | idle
  | read (w : RegIndex)
  | write (w : RegIndex) (v : Word)
  deriving DecidableEq, Repr

/-- The inputs of one rising clock edge: what the agents of R6 do there (log 1). -/
structure Edge where
  /-- `rst` (R250). -/
  rst    : Bool
  access : HostAccess
  /-- `out_ready` (R68). -/
  ready  : Bool
  /-- `out_err` (R68). -/
  err    : Bool
  /-- The sequencer takes its execution step at this edge, if it is in EXEC (R183: at no fixed edge). -/
  go     : Bool
  /-- The sequencer offers a byte from this edge on, if it is in STREAM (R190: after any number of bubbles). -/
  offer  : Bool
  /-- A generator lane finishes the sample of this index at this edge (R197). -/
  lane   : Option Nat
  deriving DecidableEq, Repr

/-- The state of the machine: R20's window, sequencer and snapshot, the port bit of R47, the lanes of R51, and the model's
own record of the ports (`edges`, `taken`, `readData`, `clock`: log 1, log 7). -/
structure State where
  /-- CTRL.IE (R22). -/
  ie           : Bool
  status       : Status
  conf         : ConfigRegs
  /-- SAMPLE_RESULT (R39). -/
  sampleResult : Word
  /-- PACK_OUT (R40). -/
  packOut      : Word
  progress     : Progress
  /-- HDR0..HDR10 (R45). -/
  header       : Vector Word 11
  seq          : Seq
  snap         : Snapshot
  /-- `out_valid` (R47, R67; log 9). -/
  outValid     : Bool
  lanes        : List Lane
  /-- The inputs of the clock edges still to come, the next one first. -/
  edges        : List Edge
  /-- What the sink has taken, newest first. -/
  taken        : List SinkByte
  /-- What the host read at the last edge (R61); `none` when it read nothing there. -/
  readData     : Option Word
  /-- Clock edges so far: the argument of the free values. -/
  clock        : Nat
  deriving DecidableEq, Repr

/-- The configuration registers at reset (R250). -/
def ConfigRegs.reset : ConfigRegs :=
  { sampleRate := 0, bits := 0, freq := 0, amplitude := 0, numSamples := 0, sampleIndex := 0, packIn := 0 }

/-- STATUS at reset (R250). -/
def Status.reset : Status :=
  { done := false, drop := false, errcode := .none, errcause := .none, lastcmd := 0 }

/-- The progress registers at reset, and at the acceptance of START (R250, R181). -/
def Progress.zero : Progress := { sampleCount := 0, dataBytes := 0, hdrBytes := 0 }

/-- The machine right after reset (R250). `edges`, `taken`, `readData` and `clock` are the model's own (log 7). -/
def State.reset : State :=
  { ie := false, status := .reset, conf := .reset, sampleResult := 0, packOut := 0, progress := .zero,
    header := Vector.replicate 11 0, seq := .idle, snap := { word := 0, conf := .reset }, outValid := false,
    lanes := [], edges := [], taken := [], readData := none, clock := 0 }

end Sys2Proof.Machine
end

