-- ==== Sys2Proof/Machine/Bits.lean ====
section
/-! DEFINITION. The arithmetic primitives of 00_scope.md R9 and the little-endian layouts of 41_header_builder.md R135. -/

namespace Sys2Proof.Machine

open Sys2Proof

/-- `byte(v, j)` (R9). -/
def byteOf (v j : Nat) : Byte := BitVec.ofNat 8 (v >>> (8 * j))

/-- `low_bytes(v, B)` (R9): the two's-complement pattern of an integer cut to its low `8·B` bits. -/
def lowBytes (v : Int) (B : Nat) : Nat := (v % 2 ^ (8 * B)).toNat

/-- `sext`: the integer a pattern of `8·B` bits stands for in two's complement (R9, R165). -/
def signedOf (u B : Nat) : Int := if 2 * u < 2 ^ (8 * B) then u else (u : Int) - 2 ^ (8 * B)

/-- `le32(x)` (R135). -/
def le32 (x : Nat) : List Byte := [byteOf x 0, byteOf x 1, byteOf x 2, byteOf x 3]

/-- `le16(x)` (R135). -/
def le16 (x : Nat) : List Byte := [byteOf x 0, byteOf x 1]

/-- Round half away from zero, `RHAZ` of R9, over any ordered field with a floor: the machine runs it on rationals, the
claims speak of it on reals. -/
def rhaz {K : Type*} [Field K] [LinearOrder K] [FloorRing K] (x : K) : Int :=
  if 0 ≤ x then ⌊x + 1 / 2⌋ else -⌊-x + 1 / 2⌋

end Sys2Proof.Machine
end

