-- ==== Sys2Proof/Machine/Flags.lean ====
section
/-! DEFINITION. STATUS and its fields (10_state.md R24–R29), the codes of 60_exceptions.md R220 and R221, what acceptance,
completion, dropping and a host write do to the flags (R49), and the interrupt line (R48). -/

namespace Sys2Proof.Machine

open Sys2Proof

/-- The ERRCODE number (R220). -/
def ErrCode.num : ErrCode → BitVec 4
  | .none => 0
  | .invalidArgument => 1
  | .overflow => 2
  | .ioFailure => 3
  | .illegalCommand => 4

/-- The ERRCAUSE number (R221). -/
def ErrCause.num : ErrCause → BitVec 4
  | .none => 0
  | .bitsIllegal => 1
  | .rateZero => 2
  | .countZero => 3
  | .nyquist => 4
  | .sizeOverflow => 5
  | .rateOverflow => 6
  | .sinkError => 7
  | .badOpcode => 8

/-- The code each cause is reported with: the ERRCODE column of R221. -/
def ErrCause.code : ErrCause → ErrCode
  | .none => .none
  | .bitsIllegal | .rateZero | .countZero | .nyquist => .invalidArgument
  | .sizeOverflow | .rateOverflow => .overflow
  | .sinkError => .ioFailure
  | .badOpcode => .illegalCommand

/-- STATUS.BUSY is 1 exactly when the sequencer is not IDLE (R24). -/
def State.busy (s : State) : Bool := decide (s.seq ≠ .idle)

/-- The word STATUS reads as (R24–R29): bit 3 and bits 31:16 are RAZ. -/
def Status.toWord (busy : Bool) (st : Status) : Word :=
  (0 : BitVec 16) ++ st.lastcmd ++ st.errcause.num ++ st.errcode.num ++ (0 : BitVec 1)
    ++ BitVec.ofBool st.drop ++ BitVec.ofBool st.done ++ BitVec.ofBool busy

/-- The flags after the acceptance of `v` (R181). -/
def Status.accepted (v : Word) (st : Status) : Status :=
  { st with lastcmd := opField v, done := false, errcode := .none, errcause := .none }

/-- The flags after a completion (R222). -/
def Status.completed (code : ErrCode) (cause : ErrCause) (st : Status) : Status :=
  { st with done := true, errcode := code, errcause := cause }

/-- The flags after a dropped CMD write (R182). -/
def Status.dropped (st : Status) : Status := { st with drop := true }

/-- The flags after a host write of `v` to STATUS (R63). When a completion falls at the same edge its setting of DONE wins
(R228, R262). -/
def Status.hostWrite (completion : Bool) (v : Word) (st : Status) : Status :=
  { st with done := st.done && (!v.getLsbD 1 || completion), drop := st.drop && !v.getLsbD 2 }

/-- The interrupt output (R48). -/
def State.irq (s : State) : Bool := s.ie && s.status.done

end Sys2Proof.Machine
end

