-- ==== Sys2Proof/Machine/Operands.lean ====
section
/-! DEFINITION. The operands of the commands, read from the snapshot only (30_encoding.md R83, 10_state.md R38), and the
numbers of the register names (R21). -/

namespace Sys2Proof.Machine

open Sys2Proof

/-- `snap.sr`, unsigned. -/
def Snapshot.sr (n : Snapshot) : Nat := n.conf.sampleRate.toNat

/-- `snap.bits`, unsigned and compared whole (R31). -/
def Snapshot.bits (n : Snapshot) : Nat := n.conf.bits.toNat

/-- `snap.f`, unsigned. -/
def Snapshot.f (n : Snapshot) : Nat := n.conf.freq.toNat

/-- `snap.A`, unsigned, 31 bits. -/
def Snapshot.A (n : Snapshot) : Nat := n.conf.amplitude.toNat

/-- `snap.N`, unsigned. -/
def Snapshot.N (n : Snapshot) : Nat := n.conf.numSamples.toNat

/-- `snap.i`, unsigned. -/
def Snapshot.i (n : Snapshot) : Nat := n.conf.sampleIndex.toNat

/-- `snap.pin` read as `s32` (R36, R83). -/
def Snapshot.pin (n : Snapshot) : Int := n.conf.packIn.toInt

/-- `B`, the bytes of one sample (41_header_builder.md R131). -/
def Snapshot.B (n : Snapshot) : Nat := n.bits / 8

/-- `D = N × B`, exact (R133). -/
def Snapshot.D (n : Snapshot) : Nat := n.N * n.B

/-- `L = 44 + D`, the stream length (R185, R196). -/
def Snapshot.L (n : Snapshot) : Nat := 44 + n.D

/-- The stream position, HDR_BYTES + DATA_BYTES (R37). -/
def State.pos (s : State) : Nat := s.progress.hdrBytes.toNat + s.progress.dataBytes.toNat

/-- The word index of a register name (R21). -/
def regIndex : RegName → RegIndex
  | .ctrl => 0
  | .cmd => 1
  | .status => 2
  | .sampleRate => 3
  | .bits => 4
  | .freq => 5
  | .amplitude => 6
  | .numSamples => 7
  | .sampleIndex => 8
  | .sampleResult => 9
  | .packIn => 10
  | .packOut => 11
  | .sampleCount => 12
  | .dataBytes => 13
  | .hdrBytes => 14
  | .fmtConst => 15
  | .hdr k => BitVec.ofNat 5 (16 + k.val)

end Sys2Proof.Machine
end

