-- ==== Sys2Proof/Machine/Ops.lean ====
section
/-! DEFINITION. The shared operations on the registers: the read and the plain writes of the window (20_memory.md R61–R63),
acceptance (43_orchestration.md R181), dropping (R182) and completion, the block's analogue of taking an exception
(60_exceptions.md R222, R231). There is no return from one (R232): a completion is acknowledged by a STATUS write. -/

namespace Sys2Proof.Machine

open Sys2Proof

/-- FMT_CONST, hardwired (R44): NumChannels 1 above AudioFormat 1. -/
def fmtConst : Word := 0x00010001

/-- `BusRead(w)` (R61): the value the access type of R21 gives; CMD and the reserved words read 0. -/
def busRead (s : State) (w : RegIndex) : Word :=
  match w.toNat with
  | 0 => (BitVec.ofBool s.ie).setWidth 32
  | 2 => s.status.toWord s.busy
  | 3 => s.conf.sampleRate
  | 4 => s.conf.bits
  | 5 => s.conf.freq
  | 6 => s.conf.amplitude.setWidth 32
  | 7 => s.conf.numSamples
  | 8 => s.conf.sampleIndex
  | 9 => s.sampleResult
  | 10 => s.conf.packIn
  | 11 => s.packOut
  | 12 => s.progress.sampleCount
  | 13 => s.progress.dataBytes
  | 14 => s.progress.hdrBytes.setWidth 32
  | 15 => fmtConst
  | n => if 16 ≤ n then s.header[n - 16]?.getD 0 else 0

/-- A write to a configuration register (R62); AMPLITUDE keeps bits 30:0 (R33); other words keep the configuration. -/
def ConfigRegs.write (w : RegIndex) (v : Word) (c : ConfigRegs) : ConfigRegs :=
  match w.toNat with
  | 3 => { c with sampleRate := v }
  | 4 => { c with bits := v }
  | 5 => { c with freq := v }
  | 6 => { c with amplitude := v.extractLsb' 0 31 }
  | 7 => { c with numSamples := v }
  | 8 => { c with sampleIndex := v }
  | 10 => { c with packIn := v }
  | _ => c

/-- A host write to any word but CMD and STATUS (R62): CTRL stores its bit 0, configuration registers store the value,
every other word ignores it. -/
def plainWrite (w : RegIndex) (v : Word) (s : State) : State :=
  if w = 0 then { s with ie := v.getLsbD 0 } else { s with conf := s.conf.write w v }

/-- `StatusWrite(v)` (R63), at an edge with or without a completion (R262). -/
def statusWrite (completion : Bool) (v : Word) (s : State) : State :=
  { s with status := s.status.hostWrite completion v }

/-- `Drop()` (R182). -/
def drop (s : State) : State := { s with status := s.status.dropped }

/-- `Accept(v)` (R181): the snapshot, the flags, the progress registers for a START, and EXEC. -/
def accept (v : Word) (s : State) : State :=
  { s with
    snap := { word := v, conf := s.conf }
    status := s.status.accepted v
    progress := if decode v = .command .start then .zero else s.progress
    seq := .exec }

/-- `Complete(code, cause)` (R222): the flags, and IDLE, so that nothing is offered and no lane holds a sample. -/
def complete (code : ErrCode) (cause : ErrCause) (s : State) : State :=
  { s with status := s.status.completed code cause, seq := .idle, outValid := false, lanes := [] }

/-- `raise E(cause)` (R10, R223): a completion with the code of the cause (R221). -/
def raise (cause : ErrCause) (s : State) : State := complete cause.code cause s

/-- The first failing check of a list, in its order (R227). -/
def firstFailing (checks : List (Bool × ErrCause)) : Option ErrCause :=
  checks.findSome? fun c => if c.1 then some c.2 else none

/-- Runs `f` on the next state of an outcome; a stop stays. -/
def andThen (o : Outcome State Fault Refusal) (f : State → Outcome State Fault Refusal) : Outcome State Fault Refusal :=
  match o with
  | .next s => f s
  | .fault r => .fault r
  | .refused r => .refused r

end Sys2Proof.Machine
end

