-- ==== Sys2Proof/Machine/Exact.lean ====
section
/-! DEFINITION. The EXACT quantizer (40_signal_generator.md R105, R106), computed. R105 admits any method whose results equal
the rounding of the real value; this one encloses the sine between two rationals, more closely at each level, until both ends
round to the same integer (log 5). -/

namespace Sys2Proof.Machine

/-- `n` terms of the arctangent series at `1/q`. -/
def arctanInv (q : Nat) : Nat → ℚ
  | 0 => 0
  | k + 1 => arctanInv q k + (-1) ^ k / (((2 * k + 1 : Nat) : ℚ) * (q : ℚ) ^ (2 * k + 1))

/-- π by Machin's formula, `n` terms of each series. -/
def piMachin (n : Nat) : ℚ := 16 * arctanInv 5 n - 4 * arctanInv 239 n

/-- The same cut to `4·n` binary places, which keeps the numbers short. -/
def piApprox (n : Nat) : ℚ := (⌊piMachin n * 2 ^ (4 * n)⌋ : ℚ) / 2 ^ (4 * n)

/-- `n` terms of the sine series at `x`. -/
def sinSeries (x : ℚ) : Nat → ℚ
  | 0 => 0
  | k + 1 => sinSeries x k + (-1) ^ k * x ^ (2 * k + 1) / ((2 * k + 1).factorial : ℚ)

/-- The sine of `2π × p / sr`, at level `n`. -/
def sinApprox (n p sr : Nat) : ℚ := sinSeries (2 * piApprox n * p / sr) n

/-- How far `sinApprox n` may be from the sine, for `p < sr`: the tail of the sine series, and twice the error of π. -/
def sinError (n : Nat) : ℚ := 2 * 7 ^ (2 * n) / ((2 * n).factorial : ℚ) + 2 * (4 / 25 ^ n + 1 / 2 ^ (4 * n))

/-- The roundings of the two ends of the enclosure of `A × sin(2π × p / sr)` at level `n`. -/
def roundedEnds (A p sr n : Nat) : Int × Int :=
  (rhaz ((A : ℚ) * (sinApprox n p sr - sinError n)), rhaz ((A : ℚ) * (sinApprox n p sr + sinError n)))

/-- Doubles the level until the two ends round alike. The last arm is reached by no argument of R100's range (log 5). -/
def refineRounding (A p sr : Nat) : Nat → Nat → Int
  | 0, n => rhaz ((A : ℚ) * sinApprox n p sr)
  | fuel + 1, n =>
    let ends := roundedEnds A p sr n
    if ends.1 = ends.2 then ends.1 else refineRounding A p sr fuel (2 * n)

/-- `(A + 1) div 2`, the rounding of `A/2` (R106). -/
def halfUp (A : Nat) : Int := ((A + 1) / 2 : Nat)

/-- The rounding where `12 × p / sr` is a whole number of twelfths of a turn with a rational sine: the table of R106. -/
def rationalPoint (A twelfth : Nat) : Option Int :=
  match twelfth with
  | 0 | 6 => some 0
  | 1 | 5 => some (halfUp A)
  | 3 => some (A : Int)
  | 7 | 11 => some (-halfUp A)
  | 9 => some (-(A : Int))
  | _ => none

/-- `Q(A, p, sr)` of R105. -/
def quantExact (A p sr : Nat) : Int :=
  match (if 12 * p % sr = 0 then rationalPoint A (12 * p / sr) else none) with
  | some v => v
  | none => refineRounding A p sr 40 24

end Sys2Proof.Machine
end

