-- ==== Sys2Proof/Machine/Generator.lean ====
section
/-! DEFINITION. The signal generator and SAMPLE (40_signal_generator.md). -/

namespace Sys2Proof.Machine

open Sys2Proof

/-- The phase numerator `p = (f × i) mod sr`, exact (R101). -/
def phase (f i sr : Nat) : Nat := f * i % sr

/-- The quantizer `Q`, fixed by SINE_IMPL (R103, R105, R107). -/
def quantize (impl : SineImpl) (A p sr : Nat) : Int :=
  match impl with
  | .exact => quantExact A p sr
  | .approx sineFn _ => sineFn A p sr

/-- The sample `S(A, f, sr, i)` (R100, R103): a function of its arguments and nothing else (R104). -/
def sampleAt (impl : SineImpl) (A f sr i : Nat) : Int := quantize impl A (phase f i sr) sr

/-- The sample of a snapshot at index `i` (R111). -/
def Snapshot.sampleAt (impl : SineImpl) (n : Snapshot) (i : Nat) : Int :=
  Sys2Proof.Machine.sampleAt impl n.A n.f n.sr i

/-- SAMPLE over any quantizer (R110). -/
def execSampleWith (impl : SineImpl) (s : State) : Outcome State Fault Refusal :=
  if s.snap.sr = 0 then .next (raise .rateZero s)
  else .next (complete .none .none
    { s with sampleResult := BitVec.ofNat 32 (lowBytes (s.snap.sampleAt impl s.snap.i) 4) })

/-- SAMPLE of the default machine. -/
def execSample (s : State) : Outcome State Fault Refusal := execSampleWith Config.device.sine s

end Sys2Proof.Machine
end

