-- ==== Sys2Proof/Machine/Header.lean ====
section
/-! DEFINITION. The RIFF/WAVE header encoder and HEADER (41_header_builder.md). -/

namespace Sys2Proof.Machine

open Sys2Proof

/-- `bits ∈ {8, 16, 24, 32}` (R131). -/
def legalBits (bits : Nat) : Bool := bits == 8 || bits == 16 || bits == 24 || bits == 32

/-- The largest data byte count: the file size `D + 36` must fit 32 bits (R134). -/
def maxDataBytes : Nat := 0xFFFFFFDB

/-- The largest value of a 32-bit field (R132). -/
def maxField : Nat := 0xFFFFFFFF

def checkBits (n : Snapshot) : Bool × ErrCause := (!legalBits n.bits, .bitsIllegal)
def checkRate (n : Snapshot) : Bool × ErrCause := (n.sr == 0, .rateZero)
def checkSize (n : Snapshot) : Bool × ErrCause := (decide (maxDataBytes < n.D), .sizeOverflow)
def checkByteRate (n : Snapshot) : Bool × ErrCause := (decide (maxField < n.sr * n.B), .rateOverflow)

/-- `HeaderChecks()` in its order (R137, R224). -/
def headerChecks (n : Snapshot) : List (Bool × ErrCause) := [checkBits n, checkRate n, checkSize n, checkByteRate n]

/-- The ASCII codes of the four tags (R135, 93_implementation_defined.md GK1). -/
def tagRiff : List Byte := [0x52, 0x49, 0x46, 0x46]
def tagWave : List Byte := [0x57, 0x41, 0x56, 0x45]
def tagFmt : List Byte := [0x66, 0x6D, 0x74, 0x20]
def tagData : List Byte := [0x64, 0x61, 0x74, 0x61]

/-- The header bytes `h[0..43]`, field by field (R135). -/
def headerBytes (sr bits B D : Nat) : List Byte :=
  tagRiff ++ le32 (D + 36) ++ tagWave ++ tagFmt ++ le32 16 ++ le16 1 ++ le16 1 ++ le32 sr ++ le32 (sr * B)
    ++ le16 B ++ le16 bits ++ tagData ++ le32 D

/-- The header of a snapshot: a function of `sr`, `bits` and `N` only (R139). -/
def Snapshot.headerBytes (n : Snapshot) : List Byte := Sys2Proof.Machine.headerBytes n.sr n.bits n.B n.D

/-- Word `k` of the header window, little-endian (R45). -/
def headerWord (h : List Byte) (k : Nat) : Word :=
  h.getD (4 * k + 3) 0 ++ h.getD (4 * k + 2) 0 ++ h.getD (4 * k + 1) 0 ++ h.getD (4 * k) 0

/-- The eleven words of the window (R136). -/
def headerWindow (h : List Byte) : Vector Word 11 := Vector.ofFn fun k => headerWord h k

/-- HEADER (R140). -/
def execHeader (s : State) : Outcome State Fault Refusal :=
  match firstFailing (headerChecks s.snap) with
  | some cause => .next (raise cause s)
  | none => .next (complete .none .none { s with header := headerWindow s.snap.headerBytes })

end Sys2Proof.Machine
end

