-- ==== Sys2Proof/Machine/Packer.lean ====
section
/-! DEFINITION. The PCM data packer and PACK (42_data_packer.md). -/

namespace Sys2Proof.Machine

open Sys2Proof

/-- `PackOne(S, B)`: `B` bytes, least significant first (R161, R162). -/
def packOne (S : Int) (B : Nat) : List Byte := (List.range B).map fun j => byteOf (lowBytes S B) j

/-- The number a little-endian byte sequence stands for (R165). -/
def leValue : List Byte → Nat
  | [] => 0
  | b :: bs => b.toNat + 256 * leValue bs

/-- The unpacker of R165: little-endian bytes, sign-extended from their top bit. -/
def unpackOne (bytes : List Byte) : Int := signedOf (leValue bytes) bytes.length

/-- PACK (R164). -/
def execPack (s : State) : Outcome State Fault Refusal :=
  match firstFailing [checkBits s.snap] with
  | some cause => .next (raise cause s)
  | none => .next (complete .none .none { s with packOut := BitVec.ofNat 32 (lowBytes s.snap.pin s.snap.B) })

end Sys2Proof.Machine
end

