-- ==== Sys2Proof/Machine/Control.lean ====
section
/-! DEFINITION. Command control: NOP, START, the illegal word, and the CMD register (43_orchestration.md R180–R188,
60_exceptions.md R229). -/

namespace Sys2Proof.Machine

open Sys2Proof

/-- NOP: nothing (R184). It is run at the CMD write itself; it is never accepted. -/
def execNop (s : State) : Outcome State Fault Refusal := .next s

def checkCount (n : Snapshot) : Bool × ErrCause := (n.N == 0, .countZero)
def checkNyquist (n : Snapshot) : Bool × ErrCause := (decide (n.sr < 2 * n.f), .nyquist)

/-- The checks of START in their order (R185, R224). -/
def startChecks (n : Snapshot) : List (Bool × ErrCause) :=
  [checkBits n, checkRate n, checkCount n, checkNyquist n, checkSize n, checkByteRate n]

/-- START up to the end of validation and the header-window write (R183, R185); the stream follows, one offered byte at a
time (Stream.lean). -/
def execStart (s : State) : Outcome State Fault Refusal :=
  match firstFailing (startChecks s.snap) with
  | some cause => .next (raise cause s)
  | none => .next { s with header := headerWindow s.snap.headerBytes, seq := .stream, outValid := false, lanes := [] }

/-- The execution step of an accepted word that is no command (R229). -/
def execIllegal (s : State) : Outcome State Fault Refusal := .next (raise .badOpcode s)

/-- The execution step of the accepted word (R183), given the meaning of the commands. -/
def runCommand (ex : Instr → State → Outcome State Fault Refusal) (s : State) : Outcome State Fault Refusal :=
  match decode s.snap.word with
  | .command i => ex i s
  | .illegal _ => execIllegal s

/-- `Command(v)` (R180): dropped when the block was BUSY before the edge (R182, R228), run at once when it is NOP (R184),
else accepted (R181). -/
def command (ex : Instr → State → Outcome State Fault Refusal) (busy : Bool) (v : Word) (s : State) :
    Outcome State Fault Refusal :=
  if busy then .next (drop s)
  else if decode v = .command .nop then ex .nop s
  else .next (accept v s)

/-- `BusWrite(w, v)` (R62), at an edge where the block was BUSY or not before it and a command completed or not. -/
def busWrite (ex : Instr → State → Outcome State Fault Refusal) (busy completion : Bool) (w : RegIndex) (v : Word)
    (s : State) : Outcome State Fault Refusal :=
  if w = 1 then command ex busy v s
  else if w = 2 then .next (statusWrite completion v s)
  else .next (plainWrite w v s)

end Sys2Proof.Machine
end

