-- ==== Sys2Proof/Machine/Stream.lean ====
section
/-! DEFINITION. The output stream of a run (43_orchestration.md R189–R193, R197; 20_memory.md R66–R68) and the port outputs
(10_state.md R47, R48). -/

namespace Sys2Proof.Machine

open Sys2Proof

/-- The index of the sample whose byte stands at stream position `pos` (R189); 0 in the header. -/
def Snapshot.sampleIndexAt (n : Snapshot) (pos : Nat) : Nat := (pos - 44) / n.B

/-- The stream byte at `pos`, given the samples (R189). -/
def streamByteOf (sample : Nat → Int) (n : Snapshot) (pos : Nat) : Byte :=
  if pos < 44 then n.headerBytes.getD pos 0
  else byteOf (lowBytes (sample (n.sampleIndexAt pos)) n.B) ((pos - 44) % n.B)

/-- `StreamByte(pos)` (R189): fixed by the snapshot. -/
def Snapshot.streamByte (impl : SineImpl) (n : Snapshot) (pos : Nat) : Byte := streamByteOf (n.sampleAt impl) n pos

/-- The sample at index `i` as the block finds it: in a lane, if one has computed it ahead, else from the generator (R197). -/
def State.laneSample (impl : SineImpl) (s : State) (i : Nat) : Int :=
  match s.lanes.find? fun l => l.index == i with
  | some l => l.sample
  | none => s.snap.sampleAt impl i

/-- The byte on offer at the position reached (R190). -/
def State.offeredByte (impl : SineImpl) (s : State) : Byte := streamByteOf (s.laneSample impl) s.snap s.pos

/-- The end marker on offer: set exactly at position `L − 1` (R190). -/
def State.offeredLast (s : State) : Bool := s.pos == s.snap.L - 1

/-- The outputs of the block's ports (R47, R48). -/
structure Ports where
  outValid : Bool
  outData  : Byte
  outLast  : Bool
  irq      : Bool
  deriving DecidableEq, Repr

/-- The port outputs of a state; while `out_valid = 0` the data and the end marker are free values (U11, log 6). -/
def State.ports (impl : SineImpl) (s : State) : Ports :=
  { outValid := s.outValid
    outData := if s.outValid then s.offeredByte impl else Config.freeOutData s.clock
    outLast := if s.outValid then s.offeredLast else Config.freeOutLast s.clock
    irq := s.irq }

/-- `Count(pos)` (R191). -/
def Progress.count (pos B : Nat) (p : Progress) : Progress :=
  if pos < 44 then { p with hdrBytes := p.hdrBytes + 1 }
  else
    { p with
      dataBytes := p.dataBytes + 1
      sampleCount := if (pos - 44) % B = B - 1 then p.sampleCount + 1 else p.sampleCount }

/-- The sink takes the byte on offer (R66): it has the byte, the block counts it (R191) and forgets the lanes behind the new
position. -/
def takeByte (impl : SineImpl) (s : State) : State :=
  { s with
    taken := { data := s.offeredByte impl, last := s.offeredLast } :: s.taken
    progress := s.progress.count s.pos s.snap.B
    outValid := false
    lanes := s.lanes.filter fun l => decide (s.snap.sampleIndexAt (s.pos + 1) ≤ l.index) }

/-- A lane finishes sample `i` (R197): kept when a lane is free, the sample is still to come and is not held yet. -/
def fillLane (c : Params) (i : Nat) (s : State) : State :=
  if s.lanes.length < c.lanes ∧ s.snap.sampleIndexAt s.pos ≤ i ∧ i < s.snap.N ∧ ∀ l ∈ s.lanes, l.index ≠ i then
    { s with lanes := { index := i, sample := s.snap.sampleAt c.sine i } :: s.lanes }
  else s

/-- The lane work of an edge. -/
def laneWork (c : Params) (e : Edge) (s : State) : State :=
  match e.lane with
  | some i => fillLane c i s
  | none => s

/-- The sink takes a byte at this edge: one is on offer and the sink is ready (R66, R68). -/
def takes (e : Edge) (s : State) : Bool := s.outValid && e.ready

/-- One clock edge of a run (R191–R193): a byte taken counts first; then a sink error ends the run, or the last byte does.
The lanes go on with the samples still to come (R197). -/
def streamEdge (c : Params) (e : Edge) (s : State) : State :=
  let s1 := laneWork c e (if takes e s then takeByte c.sine s else s)
  if e.err then raise .sinkError s1
  else if takes e s && s.offeredLast then complete .none .none s1
  else s1

/-- The sequencer raises `out_valid` when it offers a byte (R190); it never lowers it here (R67). -/
def present (e : Edge) (s : State) : State :=
  if s.seq = .stream ∧ e.offer = true then { s with outValid := true } else s

end Sys2Proof.Machine
end

