-- ==== Sys2Proof/Machine/Edge.lean ====
section
/-! DEFINITION. One clock edge of the block: reset, the host read, the sequencer and the sink, the host write, in the order of
20_memory.md R73 and 60_exceptions.md R228 (log 1). -/

namespace Sys2Proof.Machine

open Sys2Proof

/-- The edge at which nothing comes from outside and the sequencer is free to go on: what the machine takes when no input is
listed (DESIGN CHOICE, log 2). -/
def Edge.quiet : Edge :=
  { rst := false, access := .idle, ready := false, err := false, go := true, offer := true, lane := none }

/-- The next edge's inputs. -/
def State.nextEdge (s : State) : Edge := s.edges.headD Edge.quiet

/-- What the host reads at this edge: the word as it stood before the edge (R61, R64). -/
def readValue (e : Edge) (s : State) : Option Word :=
  match e.access with
  | .read w => some (busRead s w)
  | .idle | .write _ _ => none

/-- The state with the edge's inputs consumed and its read answered; no register changes (R61). -/
def beginEdge (e : Edge) (s : State) : State :=
  { s with edges := s.edges.tail, readData := readValue e s, clock := s.clock + 1 }

/-- An edge with `rst = 1` (R250): every piece of the block's state takes its reset value and nothing else happens; a read
returns the reset value of the word (log 13). What lies outside the block stays: the inputs to come, the bytes the sink
holds, the count of edges (R251, log 7). -/
def resetEdge (e : Edge) (s : State) : State :=
  { State.reset with
    edges := s.edges.tail, taken := s.taken, readData := readValue e State.reset, clock := s.clock + 1 }

/-- The sequencer and the sink at one edge (R183, R190–R193): in EXEC the execution step, when the sequencer takes it. -/
def sequencerEdge (c : Params) (ex : Instr → State → Outcome State Fault Refusal) (e : Edge) (s : State) :
    Outcome State Fault Refusal :=
  match s.seq with
  | .idle => .next s
  | .exec => if e.go then runCommand ex s else .next s
  | .stream => .next (streamEdge c e s)

/-- The host write at one edge, after the sequencer (R73): BUSY is as it stood before the edge (R228), and a completion at
the edge is the sequencer's way back to IDLE (R222, R262). -/
def hostWrite (ex : Instr → State → Outcome State Fault Refusal) (e : Edge) (busyBefore : Bool) (s : State) :
    Outcome State Fault Refusal :=
  match e.access with
  | .write w v => busWrite ex busyBefore (busyBefore && !s.busy) w v s
  | .idle | .read _ => .next s

/-- One clock edge. -/
def edgeStep (c : Params) (ex : Instr → State → Outcome State Fault Refusal) (e : Edge) (s : State) :
    Outcome State Fault Refusal :=
  if e.rst then .next (resetEdge e s)
  else andThen (sequencerEdge c ex e (beginEdge e s)) fun s1 => hostWrite ex e s.busy (present e s1)

/-- The edge at which the sequencer takes its execution step and nothing else happens. -/
def Edge.run : Edge :=
  { rst := false, access := .idle, ready := false, err := false, go := true, offer := false, lane := none }

/-- The edge at which the host writes `v` to CMD. -/
def Edge.writeCmd (v : Word) : Edge := { Edge.run with access := .write 1 v }

/-- The word `v` placed so that the next step runs it (log 10): NOP is run at its CMD write, on an idle block; every other
word is run in EXEC, so it is accepted here, from the configuration as it stands. -/
def placeCommand (v : Word) (s : State) : State :=
  if decode v = .command .nop then { s with seq := .idle, outValid := false, lanes := [], edges := Edge.writeCmd v :: s.edges }
  else { accept v s with outValid := false, lanes := [], edges := Edge.run :: s.edges }

end Sys2Proof.Machine
end

