-- ==== Sys2Proof/Machine/Dispatch.lean ====
section
/-! DEFINITION. The meaning of each command: the execution step of 43_orchestration.md R183 (log 4). -/

namespace Sys2Proof.Machine

open Sys2Proof

def exec (i : Instr) (s : State) : Host.Outcome State Fault Refusal :=
  match i with
  | .nop => Sys2Proof.Machine.execNop s
  | .start => Sys2Proof.Machine.execStart s
  | .sample => Sys2Proof.Machine.execSample s
  | .header => Sys2Proof.Machine.execHeader s
  | .pack => Sys2Proof.Machine.execPack s

end Sys2Proof.Machine
end

