-- ==== Sys2Proof/Machine/Step.lean ====
section
/-! DEFINITION. The step of the machine: one clock edge (log 1). -/

namespace Sys2Proof.Machine

open Sys2Proof

/-- One clock edge of the default machine, WAVEGEN-1/EXACT. -/
def step (s : State) : Host.Outcome State Fault Refusal := edgeStep Config.device exec s.nextEdge s

/-- The commands of a machine with any quantizer (R103): only SAMPLE depends on it. -/
def execWith (impl : SineImpl) (i : Instr) (s : State) : Host.Outcome State Fault Refusal :=
  match i with
  | .sample => execSampleWith impl s
  | .nop | .start | .header | .pack => exec i s

/-- One clock edge of the machine with the parameters `c` (R5). -/
def stepWith (c : Params) (s : State) : Host.Outcome State Fault Refusal := edgeStep c (execWith c.sine) s.nextEdge s

/-- `s` with the command word `w` placed so that the next step runs it (log 10). A CMD word is one 32-bit bus write, so the
word is whole whatever its row's length. -/
def State.withFetchWord (s : State) (nbits w : Nat) : State := placeCommand (BitVec.ofNat 32 (w % 2 ^ nbits)) s

end Sys2Proof.Machine
end

