-- ==== Sys2Proof/Machine/HostProgram.lean ====
section
/-! DEFINITION. The host-program notation (30_encoding.md R85, R86): the word a reference names, the listing triple of an
operation, the expansion of a pseudo-instruction, and what an operation and a program do to the machine. -/

namespace Sys2Proof.Machine

open Sys2Proof

/-- The word a `<reg>` names (R85). -/
def refIndex : RegRef → RegIndex
  | .name r => regIndex r
  | .index w => BitVec.ofNat 5 w

/-- The expansions of R86; a core operation stands for itself. -/
def expand : HostOp → HostOp
  | .cmd i => .wr (.name .cmd) (encode i).toNat
  | .wait => .poll (.name .status) 0x1 0x0
  | .ack => .wr (.name .status) 0x6
  | .wr r v => .wr r v
  | .rd r e => .rd r e
  | .poll r m v => .poll r m v
  | .sink n => .sink n
  | .sinkErr => .sinkErr

/-- The triple an operation is listed as (R86): a write with its value, a read with the value it expects. A POLL is a
repeated read with no data; SINK and SINKERR are sink steps and have no triple. -/
def listing (op : HostOp) : Option Listing :=
  match expand op with
  | .wr r v => some { dir := .write, word := refIndex r, data := some (BitVec.ofNat 32 v) }
  | .rd r e => some { dir := .read, word := refIndex r, data := e.map (BitVec.ofNat 32) }
  | .poll r _ _ => some { dir := .read, word := refIndex r, data := none }
  | .sink _ | .sinkErr | .cmd _ | .wait | .ack => none

/-- The host access of an operation in each of its cycles (R85). -/
def hostAccess (op : HostOp) : HostAccess :=
  match expand op with
  | .wr r v => .write (refIndex r) (BitVec.ofNat 32 v)
  | .rd r _ | .poll r _ _ => .read (refIndex r)
  | .sink _ | .sinkErr | .cmd _ | .wait | .ack => .idle

/-- The edge an operation drives (R85): its host access, `out_ready` in a SINK, `out_err` in a SINKERR. When the sequencer
acts, offers and finishes lanes is the `timing`'s, which may depend on the cycle (log 15). -/
def hostEdge (timing : Nat → Edge) (op : HostOp) (s : State) : Edge :=
  { timing s.clock with
    rst := false
    access := hostAccess op
    ready := match expand op with
      | .sink _ => true
      | .wr _ _ | .rd _ _ | .poll _ _ _ | .sinkErr | .cmd _ | .wait | .ack => false
    err := match expand op with
      | .sinkErr => true
      | .wr _ _ | .rd _ _ | .poll _ _ _ | .sink _ | .cmd _ | .wait | .ack => false }

/-- What an operation expects of the value its read returned (R85): RD its expected value, POLL the end of its loop. -/
def readMeets (op : HostOp) (v : Word) : Bool :=
  match expand op with
  | .rd _ (some e) => v == BitVec.ofNat 32 e
  | .rd _ none => true
  | .poll _ m x => (v &&& BitVec.ofNat 32 m) == BitVec.ofNat 32 x
  | .wr _ _ | .sink _ | .sinkErr | .cmd _ | .wait | .ack => true

/-- The operation that began in `s` is over in `t` (R85): a SINK when the sink has taken its `n` bytes since, a POLL when
its read returned what it waits for, every other operation after one cycle. -/
def opDone (op : HostOp) (s t : State) : Bool :=
  match expand op with
  | .sink n => t.taken.length == s.taken.length + n
  | .poll _ _ _ => t.readData.all (readMeets op)
  | .wr _ _ | .rd _ _ | .sinkErr | .cmd _ | .wait | .ack => true

/-- Drives the edges of an operation from `t` on until it is over, at most `fuel` of them; `none` when it is not over then. -/
def drive (c : Params) (timing : Nat → Edge) (op : HostOp) (s : State) : Nat → State → Option State
  | 0, _ => none
  | fuel + 1, t =>
    match stepWith c { t with edges := hostEdge timing op t :: t.edges } with
    | .next u => if opDone op s u then some u else drive c timing op s fuel u
    | .fault _ | .refused _ => none

/-- Runs one operation within `fuel` cycles: `none` when it does not end within them, and when an RD reads another value
than it expects. `SINK 0` takes no byte and no cycle. -/
def runOp (c : Params) (timing : Nat → Edge) (fuel : Nat) (op : HostOp) (s : State) : Option State :=
  match expand op with
  | .sink 0 => some s
  | .sink (_ + 1) | .wr _ _ | .rd _ _ | .poll _ _ _ | .sinkErr | .cmd _ | .wait | .ack =>
    (drive c timing op s fuel s).filter fun t => t.readData.all (readMeets op)

/-- Runs a host program, line by line, with `fuel` cycles for each line. -/
def runProgram (c : Params) (timing : Nat → Edge) (fuel : Nat) : List HostOp → State → Option State
  | [], s => some s
  | op :: ops, s => (runOp c timing fuel op s).bind (runProgram c timing fuel ops)

end Sys2Proof.Machine
end

