-- ==== Sys2Proof/Safety.lean ====
section
/-! DEFINITION. What claims speak of and no step computes: the ideal value of a sample, what an approximate sine must meet,
the file a run must emit, and the invariant of the machine. -/

namespace Sys2Proof.Machine

open Sys2Proof

/-- The ideal value of a sample, the real `A × sin(2π × p / sr)` (R102). -/
noncomputable def idealValue (A p sr : Nat) : ℝ := A * Real.sin (2 * Real.pi * p / sr)

/-- The arguments of a quantizer: `A < 2^31`, `0 ≤ p < sr < 2^32` (R100, R105, R107). -/
def SineDomain (A p sr : Nat) : Prop := A < 2 ^ 31 ∧ p < sr ∧ sr < 2 ^ 32

/-- P2–P5 of R107 for a sine function with tolerance SINE_TOL. P1, that the value depends on (A, p, sr) only, is its type. -/
structure SineContract (tol : ℝ) (sineFn : Nat → Nat → Nat → Int) : Prop where
  p2 : ∀ A sr, SineDomain A 0 sr → sineFn A 0 sr = 0
  p3 : ∀ A p sr, SineDomain A p sr → 0 < p → sineFn A (sr - p) sr = -sineFn A p sr
  p4 : ∀ A p sr, SineDomain A p sr → |(sineFn A p sr : ℝ) - idealValue A p sr| ≤ tol
  p5 : ∀ p sr, SineDomain 0 p sr → sineFn 0 p sr = 0

/-- A quantizer the spec admits (R103): EXACT, or APPROX over a SINE_FN that meets R107 with its own SINE_TOL. -/
def AdmittedSine : SineImpl → Prop
  | .exact => True
  | .approx sineFn sineTol => SineContract sineTol sineFn

/-- The WAVE file of a configuration: the header, then the packed samples in index order (R160, R189). -/
def Snapshot.file (impl : SineImpl) (n : Snapshot) : List Byte :=
  n.headerBytes ++ (List.range n.N).flatMap fun i => packOne (n.sampleAt impl i) n.B

/-- A snapshot that passes every check of START (R185). -/
def Snapshot.Valid (n : Snapshot) : Prop :=
  (n.bits = 8 ∨ n.bits = 16 ∨ n.bits = 24 ∨ n.bits = 32) ∧ 0 < n.sr ∧ 0 < n.N ∧ 2 * n.f ≤ n.sr
    ∧ n.D ≤ 0xFFFFFFDB ∧ n.sr * n.B ≤ 0xFFFFFFFF

/-- The bytes the sink has taken in the run in progress or last ended, in stream order: the newest HDR_BYTES + DATA_BYTES it
holds (R195). -/
def State.runBytes (s : State) : List SinkByte := (s.taken.take s.pos).reverse

/-- What holds of the machine between two edges, for the parameters `c`. -/
structure State.Inv (c : Params) (s : State) : Prop where
  /-- NOP is never accepted (R180, R184). -/
  execWord : s.seq = .exec → decode s.snap.word ≠ .command .nop
  /-- Only a START that passed every check streams (R185, R188). -/
  streamValid : s.seq = .stream → decode s.snap.word = .command .start ∧ s.snap.Valid
  /-- LASTCMD is the opcode of the command in progress (R29). -/
  lastcmd : s.seq ≠ .idle → s.status.lastcmd = opField s.snap.word
  /-- A command in progress has no completion to report (R25, R27, R28, R181). -/
  busyStatus : s.seq ≠ .idle → s.status.done = false ∧ s.status.errcode = .none ∧ s.status.errcause = .none
  /-- Each cause is reported with its code (R221). -/
  causeCode : s.status.errcode = s.status.errcause.code
  /-- Header bytes come first (R191), and there are 44 of them (R43). -/
  headerFirst : s.progress.hdrBytes.toNat ≤ 44 ∧ (s.progress.hdrBytes.toNat < 44 → s.progress.dataBytes = 0)
  /-- A START that has not been executed has streamed nothing (R181). -/
  startExec : s.seq = .exec → decode s.snap.word = .command .start → s.progress = .zero
  /-- The header window of a run is the header it streams (R136, R260). -/
  window : s.seq = .stream → s.header = headerWindow s.snap.headerBytes
  /-- The stream position (R37). -/
  position : s.seq = .stream → s.pos < s.snap.L
  /-- SAMPLE_COUNT counts whole samples (R41). -/
  sampleCount : s.seq = .stream → s.progress.sampleCount.toNat = s.progress.dataBytes.toNat / s.snap.B
  /-- Nothing is offered and no lane holds a sample outside a run (R47, R222). -/
  quiet : s.seq ≠ .stream → s.outValid = false ∧ s.lanes = []
  /-- A lane holds the generator's sample of an index still to come (R197, R104). -/
  laneSamples : ∀ l ∈ s.lanes, l.sample = s.snap.sampleAt c.sine l.index ∧ s.snap.sampleIndexAt s.pos ≤ l.index
    ∧ l.index < s.snap.N
  /-- At most SG_LANES lanes work (R5, R197). -/
  laneCount : s.lanes.length ≤ c.lanes
  /-- The sink has exactly the bytes of the run so far, in order, none of them marked last (R74, R195). -/
  bytesTaken : s.seq = .stream →
    s.runBytes = (List.range s.pos).map fun k => { data := s.snap.streamByte c.sine k, last := false }

end Sys2Proof.Machine
end

