-- ==== Sys2Proof/Certificates/Slice0/Obligations.lean ====
section
/-! DEFINITION. The statements about WAVEGEN for the provers. -/

open Sys2Proof Sys2Proof.Machine

/-! ### Encoding -/

/-- R81 on the table's words and a few illegal ones. -/
def Obligations.DecodeOfTableWords : Prop :=
  decode 0x00000000 = .command .nop ∧ decode 0x00000001 = .command .start ∧ decode 0x00000002 = .command .sample
    ∧ decode 0x00000003 = .command .header ∧ decode 0x00000004 = .command .pack
    ∧ decode 0x00000005 = .illegal .reservedOpcode ∧ decode 0x0000000F = .illegal .reservedOpcode
    ∧ decode 0x00000010 = .illegal .reservedBits ∧ decode 0x80000001 = .illegal .reservedBits

/-- R81, total: five words are commands, each its own, and every other word is illegal. -/
def Obligations.DecodeIsTotalAndExact : Prop :=
  ∀ v : Word,
    (decode v = .command .nop ↔ v = 0) ∧ (decode v = .command .start ↔ v = 1) ∧ (decode v = .command .sample ↔ v = 2)
      ∧ (decode v = .command .header ↔ v = 3) ∧ (decode v = .command .pack ↔ v = 4)
      ∧ ((∃ why, decode v = .illegal why) ↔ (v.extractLsb' 4 28 ≠ 0 ∨ 0x5 ≤ (v.extractLsb' 0 4).toNat))

/-- Decoding and encoding agree in both directions, for every well-formed command. -/
def Obligations.DecodeEncodeAgree : Prop :=
  ∀ (i : Instr) (v : Word), i.wellFormed = true → (decode v = .command i ↔ v = encode i)

/-- R86: the seven expansions, and the triple each host operation is listed as, with the two examples. The word a `<reg>`
names is the one of the map of R21, or its own index (R85). -/
def Obligations.PseudoInstructionsExpand : Prop :=
  expand (.cmd .nop) = .wr (.name .cmd) 0x00000000 ∧ expand (.cmd .start) = .wr (.name .cmd) 0x00000001
    ∧ expand (.cmd .sample) = .wr (.name .cmd) 0x00000002 ∧ expand (.cmd .header) = .wr (.name .cmd) 0x00000003
    ∧ expand (.cmd .pack) = .wr (.name .cmd) 0x00000004 ∧ expand .wait = .poll (.name .status) 0x1 0x0
    ∧ expand .ack = .wr (.name .status) 0x00000006
    ∧ (∀ (r : RegRef) (v : Nat),
        listing (.wr r v) = some { dir := .write, word := refIndex r, data := some (BitVec.ofNat 32 v) })
    ∧ (∀ (r : RegRef) (v : Nat),
        listing (.rd r (some v)) = some { dir := .read, word := refIndex r, data := some (BitVec.ofNat 32 v) })
    ∧ (∀ (r : RegRef) (m v : Nat),
        listing (.rd r none) = some { dir := .read, word := refIndex r, data := none }
          ∧ listing (.poll r m v) = some { dir := .read, word := refIndex r, data := none })
    ∧ listing (.cmd .start) = some { dir := .write, word := 1, data := some 0x00000001 }
    ∧ listing (.wr (.name .sampleRate) 48000) = some { dir := .write, word := 3, data := some 0x0000BB80 }
    ∧ (∀ op : HostOp, listing op = listing (expand op))
    ∧ [RegName.ctrl, .cmd, .status, .sampleRate, .bits, .freq, .amplitude, .numSamples, .sampleIndex, .sampleResult, .packIn,
        .packOut, .sampleCount, .dataBytes, .hdrBytes, .fmtConst].map (fun n => (refIndex (.name n)).toNat) = List.range 16
    ∧ (∀ k : Fin 11, (refIndex (.name (.hdr k))).toNat = 16 + k) ∧ ∀ w : Nat, w < 32 → (refIndex (.index w)).toNat = w

/-! ### Taking a command -/

/-- R182: a CMD write while BUSY sets DROP and nothing else, for every word. -/
def Obligations.CmdWriteWhileBusyIsDropped : Prop :=
  ∀ (s : State) (v : Word) (completion : Bool), s.seq ≠ .idle →
    busWrite exec s.busy completion 1 v s = .next { s with status := { s.status with drop := true } }

/-- R181: what acceptance writes, and that it writes nothing else; the word is any but NOP, illegal words included. -/
def Obligations.CmdWriteWhileIdleIsAccepted : Prop :=
  ∀ (s : State) (v : Word), s.seq = .idle → v ≠ 0 →
    busWrite exec s.busy false 1 v s = .next { s with
      snap := { word := v, conf := s.conf }
      status := { done := false, drop := s.status.drop, errcode := .none, errcause := .none, lastcmd := v.extractLsb' 0 4 }
      progress := if v = 1 then { sampleCount := 0, dataBytes := 0, hdrBytes := 0 } else s.progress
      seq := .exec }

/-- R184: NOP is the word 0; it has no effect at all, run by itself and written to CMD of an idle block; written to a BUSY
block it is dropped. -/
def Obligations.NopHasNoEffect : Prop :=
  encode .nop = 0 ∧ (∀ s : State, exec .nop s = .next s)
    ∧ (∀ s : State, s.seq = .idle → busWrite exec s.busy false 1 (encode .nop) s = .next s)
    ∧ ∀ (s : State) (completion : Bool), s.seq ≠ .idle →
        busWrite exec s.busy completion 1 (encode .nop) s = .next { s with status := { s.status with drop := true } }

/-- R229: an illegal word is accepted by an idle block like any other, and its execution step completes with
ILLEGAL_COMMAND / BAD_OPCODE and changes only STATUS and the way back to IDLE. -/
def Obligations.IllegalWordCompletesWithBadOpcode : Prop :=
  ∀ (s : State) (v : Word), s.seq = .idle → 0x5 ≤ v.toNat →
    busWrite exec s.busy false 1 v s = .next (accept v s)
      ∧ runCommand exec (accept v s) = .next { accept v s with
          status := { (accept v s).status with done := true, errcode := .illegalCommand, errcause := .badOpcode }
          seq := .idle, outValid := false, lanes := [] }
      ∧ (accept v s).progress = s.progress

/-- R222: what STATUS and the ports show after a completion. -/
def Obligations.CompletionIsReportedInStatus : Prop :=
  ∀ (code : ErrCode) (cause : ErrCause) (impl : SineImpl) (s : State),
    (complete code cause s).busy = false ∧ ((complete code cause s).ports impl).outValid = false
      ∧ busRead (complete code cause s) 2
          = (0 : BitVec 16) ++ s.status.lastcmd ++ cause.num ++ code.num ++ (0 : BitVec 1) ++ BitVec.ofBool s.status.drop
              ++ (1 : BitVec 1) ++ (0 : BitVec 1)
      ∧ complete code cause s = { s with
          status := { s.status with done := true, errcode := code, errcause := cause }
          seq := .idle, outValid := false, lanes := [] }

/-! ### SAMPLE, HEADER, PACK, START -/

/-- R110: SAMPLE, the word 2, completes with the 32-bit pattern of the sample; RATE_ZERO is its only check. The first
clause is any SINE_IMPL's, with the quantizer R103 gives it; the second is the EXACT machine's. -/
def Obligations.SampleStoresTheGeneratorValue : Prop :=
  encode .sample = 2
  ∧ (∀ (impl : SineImpl) (s : State),
    (s.snap.conf.sampleRate ≠ 0 → execWith impl .sample s = .next (complete .none .none { s with
      sampleResult := BitVec.ofInt 32 ((match impl with | .exact => quantExact | .approx sineFn _ => sineFn)
        s.snap.conf.amplitude.toNat
        (s.snap.conf.freq.toNat * s.snap.conf.sampleIndex.toNat % s.snap.conf.sampleRate.toNat)
        s.snap.conf.sampleRate.toNat) }))
    ∧ (s.snap.conf.sampleRate = 0 → execWith impl .sample s = .next (complete .invalidArgument .rateZero s)))
  ∧ ∀ s : State,
    (s.snap.conf.sampleRate ≠ 0 → exec .sample s = .next (complete .none .none { s with
      sampleResult := BitVec.ofInt 32 (quantExact s.snap.conf.amplitude.toNat
        (s.snap.conf.freq.toNat * s.snap.conf.sampleIndex.toNat % s.snap.conf.sampleRate.toNat)
        s.snap.conf.sampleRate.toNat) }))
    ∧ (s.snap.conf.sampleRate = 0 → exec .sample s = .next (complete .invalidArgument .rateZero s))

/-- R140, R136: HEADER completes when its four checks pass, with the eleven words of the table of R136. N = 0 is legal. -/
def Obligations.HeaderWritesTheWindow : Prop :=
  ∀ s : State, (s.snap.bits = 8 ∨ s.snap.bits = 16 ∨ s.snap.bits = 24 ∨ s.snap.bits = 32) → 0 < s.snap.sr →
    s.snap.N * (s.snap.bits / 8) ≤ 0xFFFFFFDB → s.snap.sr * (s.snap.bits / 8) ≤ 0xFFFFFFFF →
    exec .header s = .next (complete .none .none { s with header := #v[0x46464952,
      BitVec.ofNat 32 (s.snap.N * (s.snap.bits / 8) + 36), 0x45564157, 0x20746D66, 0x00000010, 0x00010001,
      s.snap.conf.sampleRate, BitVec.ofNat 32 (s.snap.sr * (s.snap.bits / 8)),
      BitVec.ofNat 32 (s.snap.bits * 65536 + s.snap.bits / 8), 0x61746164,
      BitVec.ofNat 32 (s.snap.N * (s.snap.bits / 8))] })

/-- R137: HEADER reports the first failing check in the order BITS_ILLEGAL, RATE_ZERO, SIZE_OVERFLOW, RATE_OVERFLOW. -/
def Obligations.HeaderFailsAtItsFirstFailingCheck : Prop :=
  ∀ s : State,
    (¬(s.snap.bits = 8 ∨ s.snap.bits = 16 ∨ s.snap.bits = 24 ∨ s.snap.bits = 32) →
      exec .header s = .next (complete .invalidArgument .bitsIllegal s))
    ∧ ((s.snap.bits = 8 ∨ s.snap.bits = 16 ∨ s.snap.bits = 24 ∨ s.snap.bits = 32) →
      (s.snap.sr = 0 → exec .header s = .next (complete .invalidArgument .rateZero s))
      ∧ (s.snap.sr ≠ 0 →
        (0xFFFFFFDB < s.snap.N * (s.snap.bits / 8) → exec .header s = .next (complete .overflow .sizeOverflow s))
        ∧ (s.snap.N * (s.snap.bits / 8) ≤ 0xFFFFFFDB → 0xFFFFFFFF < s.snap.sr * (s.snap.bits / 8) →
          exec .header s = .next (complete .overflow .rateOverflow s))))

/-- R164: PACK, the word 4, completes with the low `B` bytes of PACK_IN, zero-extended, or fails on BITS. -/
def Obligations.PackStoresTheLowBytes : Prop :=
  encode .pack = 4 ∧ ∀ s : State,
    ((s.snap.bits = 8 ∨ s.snap.bits = 16 ∨ s.snap.bits = 24 ∨ s.snap.bits = 32) →
      exec .pack s = .next (complete .none .none { s with
        packOut := BitVec.ofNat 32 (s.snap.conf.packIn.toNat % 2 ^ s.snap.bits) }))
    ∧ (¬(s.snap.bits = 8 ∨ s.snap.bits = 16 ∨ s.snap.bits = 24 ∨ s.snap.bits = 32) →
      exec .pack s = .next (complete .invalidArgument .bitsIllegal s))

/-- R185: a START whose six checks pass writes the header window and enters STREAM; nothing else changes. -/
def Obligations.StartWritesTheWindowAndStreams : Prop :=
  ∀ s : State, s.snap.Valid →
    exec .start s = .next { s with
      header := #v[0x46464952, BitVec.ofNat 32 (s.snap.D + 36), 0x45564157, 0x20746D66, 0x00000010, 0x00010001,
        s.snap.conf.sampleRate, BitVec.ofNat 32 (s.snap.sr * s.snap.B),
        BitVec.ofNat 32 (s.snap.bits * 65536 + s.snap.B), 0x61746164, BitVec.ofNat 32 s.snap.D]
      seq := .stream, outValid := false, lanes := [] }

/-- R185, R188, R227: a START that fails reports its first failing check and offers nothing: the state is that of the
completion, with every register but STATUS as it was. -/
def Obligations.StartFailsAtItsFirstFailingCheck : Prop :=
  ∀ s : State,
    let bitsOk := s.snap.bits = 8 ∨ s.snap.bits = 16 ∨ s.snap.bits = 24 ∨ s.snap.bits = 32
    let rateOk := s.snap.sr ≠ 0
    let countOk := s.snap.N ≠ 0
    let nyquistOk := 2 * s.snap.f ≤ s.snap.sr
    let sizeOk := s.snap.N * (s.snap.bits / 8) ≤ 0xFFFFFFDB
    let byteRateOk := s.snap.sr * (s.snap.bits / 8) ≤ 0xFFFFFFFF
    (¬bitsOk → exec .start s = .next (complete .invalidArgument .bitsIllegal s))
    ∧ (bitsOk → ¬rateOk → exec .start s = .next (complete .invalidArgument .rateZero s))
    ∧ (bitsOk → rateOk → ¬countOk → exec .start s = .next (complete .invalidArgument .countZero s))
    ∧ (bitsOk → rateOk → countOk → ¬nyquistOk → exec .start s = .next (complete .invalidArgument .nyquist s))
    ∧ (bitsOk → rateOk → countOk → nyquistOk → ¬sizeOk → exec .start s = .next (complete .overflow .sizeOverflow s))
    ∧ (bitsOk → rateOk → countOk → nyquistOk → sizeOk → ¬byteRateOk →
        exec .start s = .next (complete .overflow .rateOverflow s))

/-- The frame of every command: what its execution leaves as it was (R38, R49, R39, R40, R41–R43, R45). LASTCMD and DROP are
among it; a command that ends in an error changes no result register and no header word. -/
def Obligations.CommandFrame : Prop :=
  ∀ (i : Instr) (s t : State), exec i s = .next t →
    t.ie = s.ie ∧ t.conf = s.conf ∧ t.snap = s.snap ∧ t.progress = s.progress
      ∧ t.status.drop = s.status.drop ∧ t.status.lastcmd = s.status.lastcmd
      ∧ t.taken = s.taken ∧ t.edges = s.edges ∧ t.readData = s.readData ∧ t.clock = s.clock
      ∧ (i ≠ .sample → t.sampleResult = s.sampleResult) ∧ (i ≠ .pack → t.packOut = s.packOut)
      ∧ (i ≠ .header → i ≠ .start → t.header = s.header)
      ∧ (i ≠ .nop → t.status.errcode ≠ .none → t.seq = .idle →
          t.sampleResult = s.sampleResult ∧ t.packOut = s.packOut ∧ t.header = s.header)

/-! ### The header and the packer -/

/-- R45, R135: the header is 44 bytes, and word `k` of the window holds bytes `4k .. 4k+3`, little-endian. -/
def Obligations.WindowWordsHoldTheHeaderBytes : Prop :=
  ∀ n : Snapshot, n.headerBytes.length = 44
    ∧ ∀ (k : Nat) (hk : k < 11) (j : Nat), j < 4 →
        byteOf ((headerWindow n.headerBytes)[k]'hk).toNat j = n.headerBytes.getD (4 * k + j) 0

/-- R138: once the checks pass, every number in the header is there whole, read back from its own bytes. -/
def Obligations.HeaderFieldsAreNeverCut : Prop :=
  ∀ n : Snapshot, (n.bits = 8 ∨ n.bits = 16 ∨ n.bits = 24 ∨ n.bits = 32) → n.D ≤ 0xFFFFFFDB →
    n.sr * n.B ≤ 0xFFFFFFFF →
    leValue ((n.headerBytes.drop 4).take 4) = n.D + 36 ∧ leValue ((n.headerBytes.drop 24).take 4) = n.sr
      ∧ leValue ((n.headerBytes.drop 28).take 4) = n.sr * n.B ∧ leValue ((n.headerBytes.drop 32).take 2) = n.B
      ∧ leValue ((n.headerBytes.drop 34).take 2) = n.bits ∧ leValue ((n.headerBytes.drop 40).take 4) = n.D

/-- R165, R161, R162: packing takes exactly `B` bytes, and unpacking gives the number of the signed range that agrees with
the sample modulo `2^(8B)`: the sample itself when it fits. -/
def Obligations.UnpackingRecoversTheCutSample : Prop :=
  ∀ (S : Int) (B : Nat), 1 ≤ B →
    (packOne S B).length = B ∧ -2 ^ (8 * B - 1) ≤ unpackOne (packOne S B) ∧ unpackOne (packOne S B) < 2 ^ (8 * B - 1)
      ∧ (unpackOne (packOne S B) - S) % 2 ^ (8 * B) = 0
      ∧ (-2 ^ (8 * B - 1) ≤ S → S < 2 ^ (8 * B - 1) → unpackOne (packOne S B) = S)

/-! ### The generator -/

/-- R101: the phase is `(f × i) mod sr`, exact, and gives the source's angle. -/
def Obligations.PhaseIsExact : Prop :=
  ∀ f i sr : Nat, 0 < sr → phase f i sr = f * i % sr ∧ phase f i sr < sr
    ∧ Real.sin (2 * Real.pi * f * i / sr) = Real.sin (2 * Real.pi * phase f i sr / sr)

/-- R105: the computed EXACT quantizer is the ideal value rounded half away from zero, and its three consequences. -/
def Obligations.ExactQuantizerRoundsTheIdealValue : Prop :=
  ∀ A p sr : Nat, SineDomain A p sr →
    quantExact A p sr = rhaz (idealValue A p sr) ∧ |quantExact A p sr| ≤ A ∧ quantExact A 0 sr = 0
      ∧ quantExact 0 p sr = 0

/-- R106: the values at the rational points, and that ties fall only at the four odd twelfths, with A odd. -/
def Obligations.ExactValuesAtRationalPoints : Prop :=
  ∀ A p sr : Nat, SineDomain A p sr →
    (p = 0 → quantExact A p sr = 0)
      ∧ (12 * p = sr ∨ 12 * p = 5 * sr → quantExact A p sr = ((A + 1) / 2 : Nat))
      ∧ (4 * p = sr → quantExact A p sr = A) ∧ (2 * p = sr → quantExact A p sr = 0)
      ∧ (12 * p = 7 * sr ∨ 12 * p = 11 * sr → quantExact A p sr = -((A + 1) / 2 : Nat))
      ∧ (4 * p = 3 * sr → quantExact A p sr = -A)
      ∧ ((∃ k : Int, idealValue A p sr = k + 1 / 2) →
          A % 2 = 1 ∧ (12 * p = sr ∨ 12 * p = 5 * sr ∨ 12 * p = 7 * sr ∨ 12 * p = 11 * sr))

/-- R107: the EXACT quantizer meets P1–P5 with tolerance one half. -/
def Obligations.ExactIsTheApproxCaseOfHalf : Prop := SineContract (1 / 2) quantExact

/-- R108: the six properties every admitted generator has. -/
def Obligations.GeneratorProperties : Prop :=
  ∀ (impl : SineImpl) (A f sr i j : Nat), AdmittedSine impl → A < 2 ^ 31 → 0 < sr → sr < 2 ^ 32 →
    sampleAt impl A f sr 0 = 0
      ∧ sampleAt impl A 0 sr i = 0
      ∧ sampleAt impl A f sr i = sampleAt impl A (f % sr) sr i
      ∧ sampleAt impl A f sr (i + sr) = sampleAt impl A f sr i
      ∧ (2 * f = sr → sampleAt impl A f sr i = 0)
      ∧ (f * i % sr + f * j % sr = sr → sampleAt impl A f sr i = -sampleAt impl A f sr j)

/-! ### The register window -/

/-- R62: a write to a writable word stores its value in the register of that word and nothing else, and the word reads back
what was written, as its access type leaves it; no other word changes. -/
def Obligations.WriteThenReadReturnsTheValue : Prop :=
  ∀ (s : State) (w : RegIndex) (v : Word) (busy completion : Bool),
    w = 0 ∨ w = 3 ∨ w = 4 ∨ w = 5 ∨ w = 6 ∨ w = 7 ∨ w = 8 ∨ w = 10 →
    ∃ t, busWrite exec busy completion w v s = .next t
      ∧ busRead t w = (if w = 0 then v &&& 1 else if w = 6 then v &&& 0x7FFFFFFF else v)
      ∧ (∀ w' : RegIndex, w' ≠ w → busRead t w' = busRead s w')
      ∧ t.seq = s.seq ∧ t.snap = s.snap ∧ t.progress = s.progress ∧ t.taken = s.taken
      ∧ (w = 0 → t = { s with ie := v.getLsbD 0 })
      ∧ (w = 3 → t = { s with conf := { s.conf with sampleRate := v } })
      ∧ (w = 4 → t = { s with conf := { s.conf with bits := v } })
      ∧ (w = 5 → t = { s with conf := { s.conf with freq := v } })
      ∧ (w = 6 → t = { s with conf := { s.conf with amplitude := v.extractLsb' 0 31 } })
      ∧ (w = 7 → t = { s with conf := { s.conf with numSamples := v } })
      ∧ (w = 8 → t = { s with conf := { s.conf with sampleIndex := v } })
      ∧ (w = 10 → t = { s with conf := { s.conf with packIn := v } })

/-- R62, R46: a write to a read-only or reserved word has no effect. -/
def Obligations.ReadOnlyWordsIgnoreWrites : Prop :=
  ∀ (s : State) (w : RegIndex) (v : Word) (busy completion : Bool),
    w.toNat = 9 ∨ 11 ≤ w.toNat → busWrite exec busy completion w v s = .next s

/-- R63: a STATUS write clears DONE and DROP where it has a 1, and nothing else. -/
def Obligations.StatusWriteClearsDoneAndDrop : Prop :=
  ∀ (s : State) (v : Word) (busy : Bool),
    busWrite exec busy false 2 v s = .next { s with status := { s.status with
      done := if v.getLsbD 1 then false else s.status.done
      drop := if v.getLsbD 2 then false else s.status.drop } }

/-- R44, R23, R46, R24: FMT_CONST is hardwired, CMD and the reserved words read 0, and STATUS bit 0 is 1 exactly while the
sequencer is not IDLE, in every state. -/
def Obligations.ConstantWordsAndBusy : Prop :=
  ∀ s : State, busRead s 15 = 0x00010001 ∧ busRead s 1 = 0 ∧ (∀ w : RegIndex, 27 ≤ w.toNat → busRead s w = 0)
    ∧ ((busRead s 2).getLsbD 0 = true ↔ s.seq ≠ .idle)

/-- R24–R29, R220, R221: the fields of the STATUS word, in every state, and the numbers of the codes and causes; the values
5–15 of ERRCODE and 9–15 of ERRCAUSE are never produced. -/
def Obligations.StatusWordFields : Prop :=
  ∀ s : State,
    ((busRead s 2).getLsbD 1 = s.status.done) ∧ ((busRead s 2).getLsbD 2 = s.status.drop)
      ∧ (busRead s 2).getLsbD 3 = false ∧ (busRead s 2).extractLsb' 4 4 = s.status.errcode.num
      ∧ (busRead s 2).extractLsb' 8 4 = s.status.errcause.num ∧ (busRead s 2).extractLsb' 12 4 = s.status.lastcmd
      ∧ (busRead s 2).extractLsb' 16 16 = 0 ∧ s.status.errcode.num.toNat ≤ 4 ∧ s.status.errcause.num.toNat ≤ 8
      ∧ [ErrCode.none, .invalidArgument, .overflow, .ioFailure, .illegalCommand].map ErrCode.num = [0, 1, 2, 3, 4]
      ∧ [ErrCause.none, .bitsIllegal, .rateZero, .countZero, .nyquist, .sizeOverflow, .rateOverflow, .sinkError,
          .badOpcode].map ErrCause.num = [0, 1, 2, 3, 4, 5, 6, 7, 8]

/-- R61: a read answers the word as it stood before the edge and has no side effect: the edge does to every other part of the
state what it does without the read. -/
def Obligations.ReadsHaveNoSideEffect : Prop :=
  ∀ (c : Params) (e : Edge) (w : RegIndex) (s : State), e.rst = false →
    ∃ t, edgeStep c (execWith c.sine) { e with access := .read w } s = .next t ∧ t.readData = some (busRead s w)
      ∧ edgeStep c (execWith c.sine) { e with access := .idle } s = .next { t with readData := none }

/-! ### Whole-machine rules -/

/-- R250: what every word reads after reset, and the outputs. -/
def Obligations.ResetValues : Prop :=
  (∀ w : RegIndex, busRead State.reset w = if w = 15 then 0x00010001 else 0)
    ∧ State.reset.seq = .idle ∧ State.reset.irq = false ∧ State.reset.outValid = false ∧ State.reset.lanes = []
    ∧ State.reset.snap.word = 0
    ∧ State.reset.snap.conf = { sampleRate := 0, bits := 0, freq := 0, amplitude := 0, numSamples := 0, sampleIndex := 0, packIn := 0 }

/-- R250, R228 (1), R251: at an edge with `rst = 1` every part of the block is at its reset value whatever else the edge
brings; a read returns the reset value of the word. That `edges`,
`taken` and `clock` stand outside the block and go on is the model's choice (log 7). -/
def Obligations.ResetWinsOverEverything : Prop :=
  ∀ (c : Params) (s : State), s.nextEdge.rst = true →
    ∃ t, stepWith c s = .next t ∧ t = { State.reset with
        edges := s.edges.tail, taken := s.taken, readData := t.readData, clock := s.clock + 1 }
      ∧ (∀ w, s.nextEdge.access = .read w → t.readData = some (busRead State.reset w))

/-- Every step of every machine answers a next state: WAVEGEN takes no traps (R231) and refuses no access (R234). -/
def Obligations.EveryStepAnswersNext : Prop := ∀ (c : Params) (s : State), ∃ t, stepWith c s = .next t

/-- The default machine is the machine of the parameters EXACT and one lane: the model's choice (log 3, log 8). Machines
with other parameters differ from it in SAMPLE alone among the commands (R103). -/
def Obligations.DefaultMachineIsExact : Prop :=
  Config.device = { sine := .exact, lanes := 1, oneLane := Nat.le_refl 1 }
    ∧ (∀ s : State, step s = stepWith Config.device s)
    ∧ (∀ (i : Instr) (s : State), execWith .exact i s = exec i s)
    ∧ ∀ (impl : SineImpl) (i : Instr) (s : State), i ≠ .sample → execWith impl i s = exec i s

/-- A step runs the decoded command, in a machine with any parameters: in EXEC, when the sequencer takes its step (R183), the
step is the execution of the command the snapshot's word decodes to, between the edge's beginning and its end; the step of
an accepted illegal word completes with ILLEGAL_COMMAND / BAD_OPCODE there (R229); and NOP, run at its CMD write, is executed
at that write (R180, R184). For the default machine the execution is `exec`. -/
def Obligations.StepRunsTheDecodedCommand : Prop :=
  (∀ (c : Params) (s : State) (i : Instr), s.nextEdge.rst = false → s.seq = .exec → s.nextEdge.go = true →
    decode s.snap.word = .command i →
    stepWith c s = andThen (execWith c.sine i (beginEdge s.nextEdge s)) fun t =>
      hostWrite (execWith c.sine) s.nextEdge true (present s.nextEdge t))
  ∧ (∀ (s : State) (i : Instr), s.nextEdge.rst = false → s.seq = .exec → s.nextEdge.go = true →
    decode s.snap.word = .command i →
    step s = andThen (exec i (beginEdge s.nextEdge s)) fun t => hostWrite exec s.nextEdge true (present s.nextEdge t))
  ∧ (∀ (c : Params) (s : State) (why : IllegalWord), s.nextEdge.rst = false → s.seq = .exec → s.nextEdge.go = true →
    decode s.snap.word = .illegal why →
    stepWith c s = hostWrite (execWith c.sine) s.nextEdge true
      (complete .illegalCommand .badOpcode (beginEdge s.nextEdge s)))
  ∧ (∀ (c : Params) (s : State) (v : Word), s.nextEdge.rst = false → s.seq = .idle → s.nextEdge.access = .write 1 v →
    decode v = .command .nop → stepWith c s = execWith c.sine .nop (beginEdge s.nextEdge s))
  ∧ ∀ (s : State) (v : Word), s.nextEdge.rst = false → s.seq = .idle → s.nextEdge.access = .write 1 v →
    decode v = .command .nop → step s = exec .nop (beginEdge s.nextEdge s)

/-- R199: the sequencer's transitions at an edge without reset; only a START enters STREAM. -/
def Obligations.SequencerTransitions : Prop :=
  ∀ (c : Params) (s t : State), s.nextEdge.rst = false → stepWith c s = .next t →
    (s.seq = .idle → t.seq = .idle ∨ t.seq = .exec)
      ∧ (s.seq = .exec → t.seq = .exec ∨ t.seq = .idle
          ∨ (t.seq = .stream ∧ decode s.snap.word = .command .start))
      ∧ (s.seq = .stream → t.seq = .stream ∨ t.seq = .idle)

/-- R38: the snapshot of a command in progress does not change. -/
def Obligations.SnapshotIsFixedWhileBusy : Prop :=
  ∀ (c : Params) (s t : State), s.nextEdge.rst = false → s.seq ≠ .idle → stepWith c s = .next t → t.snap = s.snap

/-- R38: a command in progress reads the snapshot only: two states that differ in the configuration registers alone step to
states that differ in them alone. -/
def Obligations.ConfigurationDoesNotReachARunningCommand : Prop :=
  ∀ (c : Params) (s t : State) (other : ConfigRegs), s.nextEdge.rst = false → s.seq ≠ .idle →
    (∀ w, s.nextEdge.access ≠ .read w) → stepWith c s = .next t →
    ∃ t', stepWith c { s with conf := other } = .next t' ∧ { t' with conf := t.conf } = t

/-- R26: DROP after a step, in every state: set by a CMD write while BUSY, cleared by a STATUS write with bit 2, else kept. -/
def Obligations.DropFollowsItsTwoWrites : Prop :=
  ∀ (c : Params) (s t : State), s.nextEdge.rst = false → stepWith c s = .next t →
    t.status.drop = (match s.nextEdge.access with
      | .write w v =>
        if w = 1 ∧ s.seq ≠ .idle then true
        else if w = 2 ∧ v.getLsbD 2 = true then false
        else s.status.drop
      | .idle | .read _ => s.status.drop)

/-- R39, R40, R45: a result register or the header window changes only at the successful execution of the command that writes
it. -/
def Obligations.ResultsChangeOnlyByTheirCommands : Prop :=
  ∀ (c : Params) (s t : State), s.nextEdge.rst = false → stepWith c s = .next t →
    (t.sampleResult ≠ s.sampleResult → s.seq = .exec ∧ decode s.snap.word = .command .sample ∧ t.status.errcode = .none)
      ∧ (t.packOut ≠ s.packOut → s.seq = .exec ∧ decode s.snap.word = .command .pack ∧ t.status.errcode = .none)
      ∧ (t.header ≠ s.header → s.seq = .exec
          ∧ ((decode s.snap.word = .command .header ∧ t.status.errcode = .none)
            ∨ (decode s.snap.word = .command .start ∧ t.seq = .stream)))

/-- R262, and the CMD write of R228 (4): whatever the host writes at the edge of a completion, DONE is 1 afterwards, `irq` follows it
where IE is 1, and a CMD write at that edge is dropped. -/
def Obligations.CompletionWinsOverHostWrites : Prop :=
  ∀ (c : Params) (s t : State), s.nextEdge.rst = false → s.seq ≠ .idle → stepWith c s = .next t → t.seq = .idle →
    t.status.done = true ∧ (t.ports c.sine).irq = t.ie
      ∧ (∀ v, s.nextEdge.access = .write 1 v → t.status.drop = true)

/-- R48, R230: the interrupt line, and its clearing by an acknowledgement at an edge with no completion or by the acceptance
of a command. -/
def Obligations.InterruptFollowsDone : Prop :=
  (∀ (impl : SineImpl) (s : State), (s.ports impl).irq = (s.ie && s.status.done))
    ∧ (∀ (c : Params) (s t : State) (v : Word), s.nextEdge.rst = false → s.seq = .idle → stepWith c s = .next t →
        (s.nextEdge.access = .write 2 v ∧ v.getLsbD 1 = true) ∨ (s.nextEdge.access = .write 1 v ∧ v ≠ 0) →
        t.irq = false)

/-! ### The stream -/

/-- R47, R190: in a run, the byte on offer is the stream byte of the position, and the end marker is set exactly at the last
position. `Inv` rules out states no run reaches: a lane that holds another value than the generator's. -/
def Obligations.OfferedByteIsTheStreamByte : Prop :=
  ∀ (c : Params) (s : State), s.Inv c → s.seq = .stream → s.outValid = true →
    (s.ports c.sine).outValid = true ∧ (s.ports c.sine).outData = s.snap.streamByte c.sine s.pos
      ∧ ((s.ports c.sine).outLast = true ↔ s.pos = s.snap.L - 1)

/-- R67: an offered byte that is not taken stays on offer, unchanged, unless a sink error or reset ends the run. -/
def Obligations.OfferIsStableUntilTaken : Prop :=
  ∀ (c : Params) (s : State), s.nextEdge.rst = false → s.nextEdge.err = false → s.nextEdge.ready = false →
    s.seq = .stream → s.outValid = true →
    ∃ t, stepWith c s = .next t ∧ t.seq = .stream ∧ (t.ports c.sine).outValid = true
      ∧ (t.ports c.sine).outData = (s.ports c.sine).outData ∧ (t.ports c.sine).outLast = (s.ports c.sine).outLast
      ∧ t.progress = s.progress ∧ t.taken = s.taken

/-- R191, R66: taking a byte counts it and hands it to the sink; a byte not taken counts nothing. The run goes on unless the
edge brings a sink error or the taking of its last byte (R66, R192–R194); CTRL.IE and the configuration change by the host
write of the edge alone, and the snapshot and LASTCMD not at all (R22, R29, R38, R198). -/
def Obligations.TakenByteIsCounted : Prop :=
  ∀ (c : Params) (s t : State), s.nextEdge.rst = false → s.seq = .stream → stepWith c s = .next t →
    (s.outValid = true → s.nextEdge.ready = true →
      t.taken = { data := (s.ports c.sine).outData, last := (s.ports c.sine).outLast } :: s.taken
        ∧ (s.pos < 44 → t.progress = { s.progress with hdrBytes := s.progress.hdrBytes + 1 })
        ∧ (44 ≤ s.pos → t.progress = { s.progress with
            dataBytes := s.progress.dataBytes + 1
            sampleCount := if (s.pos - 44) % s.snap.B = s.snap.B - 1 then s.progress.sampleCount + 1
              else s.progress.sampleCount }))
    ∧ (s.outValid = false ∨ s.nextEdge.ready = false → t.taken = s.taken ∧ t.progress = s.progress)
    ∧ (t.seq = .idle ↔ s.nextEdge.err = true ∨ (s.outValid = true ∧ s.nextEdge.ready = true ∧ s.pos = s.snap.L - 1))
    ∧ (t.seq ≠ .idle → t.seq = .stream)
    ∧ (s.nextEdge.offer = true → t.seq = .stream → t.outValid = true)
    ∧ (s.nextEdge.offer = false → t.seq = .stream → t.outValid = (s.outValid && !s.nextEdge.ready))
    ∧ (t.seq = .idle → t.status.done = true
        ∧ t.status.errcode = (if s.nextEdge.err then .ioFailure else .none)
        ∧ t.status.errcause = (if s.nextEdge.err then .sinkError else .none))
    ∧ t.snap = s.snap ∧ t.status.lastcmd = s.status.lastcmd ∧ t.header = s.header ∧ t.sampleResult = s.sampleResult
    ∧ t.packOut = s.packOut
    ∧ ((∀ w v, s.nextEdge.access ≠ .write w v) → t.ie = s.ie ∧ t.conf = s.conf)
    ∧ (∀ w v, s.nextEdge.access = .write w v →
        t.ie = (if w = 0 then v.getLsbD 0 else s.ie)
          ∧ t.conf = { sampleRate := if w = 3 then v else s.conf.sampleRate
                       bits := if w = 4 then v else s.conf.bits
                       freq := if w = 5 then v else s.conf.freq
                       amplitude := if w = 6 then v.extractLsb' 0 31 else s.conf.amplitude
                       numSamples := if w = 7 then v else s.conf.numSamples
                       sampleIndex := if w = 8 then v else s.conf.sampleIndex
                       packIn := if w = 10 then v else s.conf.packIn })

/-- R192: taking the last byte without a sink error completes the run, with the counts of a whole file. -/
def Obligations.LastByteCompletesTheRun : Prop :=
  ∀ (c : Params) (s t : State), s.Inv c → s.nextEdge.rst = false → s.nextEdge.err = false → s.nextEdge.ready = true →
    s.seq = .stream → s.outValid = true → s.pos = s.snap.L - 1 → stepWith c s = .next t →
    t.seq = .idle ∧ t.status.done = true ∧ t.status.errcode = .none ∧ t.status.errcause = .none ∧ t.outValid = false
      ∧ t.progress.hdrBytes.toNat = 44 ∧ t.progress.dataBytes.toNat = s.snap.D ∧ t.progress.sampleCount = s.snap.conf.numSamples

/-- R193, R263: a sink error ends the run at once with IO_FAILURE / SINK_ERROR, also at its last byte; a byte taken at the same
edge counts, the bytes taken before stay, and nothing is on offer. -/
def Obligations.SinkErrorEndsTheRun : Prop :=
  ∀ (c : Params) (s t : State), s.nextEdge.rst = false → s.nextEdge.err = true → s.seq = .stream → stepWith c s = .next t →
    t.seq = .idle ∧ t.status.done = true ∧ t.status.errcode = .ioFailure ∧ t.status.errcause = .sinkError
      ∧ t.outValid = false ∧ t.header = s.header
      ∧ t.taken = (if s.outValid ∧ s.nextEdge.ready then
          { data := (s.ports c.sine).outData, last := (s.ports c.sine).outLast } :: s.taken else s.taken)
      ∧ t.progress = (if s.outValid ∧ s.nextEdge.ready then s.progress.count s.pos s.snap.B else s.progress)

/-- R68: outside a run the sink's inputs have no effect. -/
def Obligations.SinkInputsAreIgnoredOutsideARun : Prop :=
  ∀ (c : Params) (e : Edge) (ready err : Bool) (s : State), s.seq ≠ .stream →
    edgeStep c (execWith c.sine) { e with ready := ready, err := err } s = edgeStep c (execWith c.sine) e s

/-- R189, R160, R196: the stream bytes of positions 0 .. L − 1 are the header followed by the packed samples in index order,
`44 + N × B` of them. -/
def Obligations.StreamIsTheHeaderThenThePackedSamples : Prop :=
  ∀ (impl : SineImpl) (n : Snapshot), 0 < n.B →
    (List.range n.L).map (n.streamByte impl) = n.file impl ∧ (n.file impl).length = 44 + n.N * n.B

/-- R195, R226: at the edge a run ends, the bytes the sink took in it are the stream bytes 0 .. T − 1 with T = HDR_BYTES +
DATA_BYTES; the run ended without error exactly when T = L and no sink error fell at that edge, by IO_FAILURE exactly when
one did, and then T ≤ L; a run that the edge ends without a sink error has taken its last byte there. -/
def Obligations.RunEndsWithExactlyItsStreamBytes : Prop :=
  ∀ (c : Params) (s t : State), s.Inv c → s.nextEdge.rst = false → s.seq = .stream → stepWith c s = .next t →
    t.seq = .idle →
    t.runBytes.map SinkByte.data = (List.range t.pos).map (s.snap.streamByte c.sine)
      ∧ (t.status.errcode = .none ↔ t.pos = s.snap.L ∧ s.nextEdge.err = false)
      ∧ (t.status.errcode ≠ .none → t.status.errcode = .ioFailure ∧ t.pos ≤ s.snap.L)
      ∧ (t.status.errcode = .ioFailure ↔ s.nextEdge.err = true)
      ∧ (s.nextEdge.err = false → s.outValid = true ∧ s.nextEdge.ready = true ∧ t.pos = s.snap.L)

/-- A sink that is always ready and never fails gets the whole file, one byte at an edge, and the run then completes; the
host may do anything on its port meanwhile (R192, R196, R198). -/
def Obligations.ReadySinkGetsTheWholeFile : Prop :=
  ∀ (s : State) (es rest : List Edge), s.Inv Config.device → s.seq = .stream → s.outValid = true →
    s.edges = es ++ rest → es.length = s.snap.L - s.pos →
    (∀ e ∈ es, e.rst = false ∧ e.err = false ∧ e.ready = true ∧ e.offer = true) →
    ∃ t, core.run es.length s = .next t ∧ t.seq = .idle ∧ t.status.errcode = .none ∧ t.edges = rest
      ∧ (t.taken.take s.snap.L).reverse.map SinkByte.data = s.snap.file Config.device.sine
      ∧ (t.taken.take s.snap.L).map SinkByte.last = true :: List.replicate (s.snap.L - 1) false

/-- R197: no port depends on SG_LANES or on what the lanes have computed: two machines that differ in the number of lanes,
the samples in them and the lanes' progress at the edge show the same ports and step to states that differ in the lanes
alone. -/
def Obligations.LanesAreUnobservable : Prop :=
  ∀ (c c' : Params) (e : Edge) (lane : Option Nat) (lanes : List Lane) (s t : State), c'.sine = c.sine →
    s.Inv c → ({ s with lanes := lanes } : State).Inv c' → edgeStep c (execWith c.sine) e s = .next t →
    ({ s with lanes := lanes } : State).ports c'.sine = s.ports c.sine
      ∧ ∃ t', edgeStep c' (execWith c'.sine) { e with lane := lane } { s with lanes := lanes } = .next t'
        ∧ { t' with lanes := t.lanes } = t

/-! ### The invariant -/

/-- The invariant holds right after reset (R250). -/
def Obligations.ResetSatisfiesTheInvariant : Prop := ∀ c : Params, State.reset.Inv c

/-- Every step of every machine keeps the invariant, whatever the host, the sink, reset and the sequencer's timing do. -/
def Obligations.EveryStepKeepsTheInvariant : Prop :=
  ∀ (c : Params) (s t : State), s.Inv c → stepWith c s = .next t → t.Inv c

/-! ### The parts of a step -/

/-- R62, R73, R228: the host write of a step is the bus write of its word and value: of an idle block on the state at the
edge's beginning, of a BUSY block on the state the sequencer leaves, with BUSY as it stood before the edge, and with a
completion when the sequencer has gone back to IDLE. -/
def Obligations.HostWriteOfAStepIsABusWrite : Prop :=
  ∀ (c : Params) (s : State) (w : RegIndex) (v : Word), s.nextEdge.rst = false → s.nextEdge.access = .write w v →
    (s.seq = .idle → stepWith c s = busWrite exec false false w v
      { s with edges := s.edges.tail, readData := none, clock := s.clock + 1 })
    ∧ (s.seq ≠ .idle → ∃ s1,
      sequencerEdge c (execWith c.sine) s.nextEdge { s with edges := s.edges.tail, readData := none, clock := s.clock + 1 }
          = .next s1
        ∧ stepWith c s = busWrite exec true (decide (s1.seq = .idle)) w v
            (if s1.seq = .stream ∧ s.nextEdge.offer = true then { s1 with outValid := true } else s1))

/-- R73, R239: without a host write an idle block keeps all its state, and so does one in EXEC that the sequencer does not
step (R183); what a BUSY block does is the sequencer's part alone. -/
def Obligations.StepWithoutAHostWrite : Prop :=
  ∀ (c : Params) (s : State), s.nextEdge.rst = false → (∀ w v, s.nextEdge.access ≠ .write w v) →
    (s.seq = .idle ∨ s.seq = .exec ∧ s.nextEdge.go = false → ∃ t, stepWith c s = .next t
      ∧ t = { s with edges := s.edges.tail, readData := t.readData, clock := s.clock + 1 })
    ∧ (s.seq ≠ .idle → ∃ s1, sequencerEdge c (execWith c.sine) s.nextEdge (beginEdge s.nextEdge s) = .next s1
      ∧ stepWith c s
          = .next (if s1.seq = .stream ∧ s.nextEdge.offer = true then { s1 with outValid := true } else s1))

/-- R85: what the operations of a host program do and when they end, at any timing of the sequencer. WR and SINKERR are one
step, and so is RD, which ends well exactly where the word it names holds the value it expects, if it expects one. POLL
reads its word, ends where the value read meets its mask and goes on from there otherwise. `SINK n` steps with the sink
ready, is one byte nearer its end where a byte is taken, and has then taken `n` bytes. Without a cycle left, POLL and
`SINK (n + 1)` have not ended. CMD, ACK and WAIT run as their expansions do (R86), and a program runs its lines in order. That
each cycle of an operation is one edge is the model's choice (log 15). -/
def Obligations.HostOperationsDoWhatTheirLinesSay : Prop :=
  ∀ (c : Params) (timing : Nat → Edge) (fuel : Nat) (s t : State),
    let cycle (a : HostAccess) (ready err : Bool) : Outcome State Fault Refusal :=
      stepWith c { s with edges :=
        { timing s.clock with rst := false, access := a, ready := ready, err := err } :: s.edges }
    (∀ (r : RegRef) (v : Nat), runOp c timing (fuel + 1) (.wr r v) s = some t ↔
      cycle (.write (refIndex r) (BitVec.ofNat 32 v)) false false = .next t)
    ∧ (∀ r : RegRef, runOp c timing (fuel + 1) (.rd r none) s = some t ↔ cycle (.read (refIndex r)) false false = .next t)
    ∧ (∀ (r : RegRef) (e : Nat), runOp c timing (fuel + 1) (.rd r (some e)) s = some t ↔
      cycle (.read (refIndex r)) false false = .next t ∧ busRead s (refIndex r) = BitVec.ofNat 32 e)
    ∧ (∀ (r : RegRef) (o : Option Nat), runOp c timing (fuel + 1) (.rd r o) s = some t →
      t.readData = some (busRead s (refIndex r)))
    ∧ (∀ (r : RegRef) (m x : Nat), runOp c timing 0 (.poll r m x) s = none
      ∧ (runOp c timing (fuel + 1) (.poll r m x) s = some t ↔
        ∃ u, cycle (.read (refIndex r)) false false = .next u ∧ u.readData = some (busRead s (refIndex r))
          ∧ if busRead s (refIndex r) &&& BitVec.ofNat 32 m = BitVec.ofNat 32 x then t = u
            else runOp c timing fuel (.poll r m x) u = some t))
    ∧ (∀ n : Nat, runOp c timing fuel (.sink 0) s = some s ∧ runOp c timing 0 (.sink (n + 1)) s = none
      ∧ (runOp c timing (fuel + 1) (.sink (n + 1)) s = some t ↔
        ∃ u, cycle .idle true false = .next u
          ∧ if u.taken.length = s.taken.length + 1 then runOp c timing fuel (.sink n) u = some t
            else u.taken = s.taken ∧ runOp c timing fuel (.sink (n + 1)) u = some t)
      ∧ (runOp c timing fuel (.sink n) s = some t → t.taken.length = s.taken.length + n))
    ∧ (runOp c timing (fuel + 1) .sinkErr s = some t ↔ cycle .idle false true = .next t)
    ∧ (∀ i : Instr, runOp c timing (fuel + 1) (.cmd i) s = some t ↔ cycle (.write 1 (encode i)) false false = .next t)
    ∧ (runOp c timing (fuel + 1) .ack s = some t ↔ cycle (.write 2 0x00000006) false false = .next t)
    ∧ runOp c timing fuel .wait s = runOp c timing fuel (.poll (.name .status) 0x1 0x0) s
    ∧ (∀ op : HostOp, runOp c timing fuel op s = runOp c timing fuel (expand op) s)
    ∧ runProgram c timing fuel [] s = some s
    ∧ ∀ (op : HostOp) (ops : List HostOp), runProgram c timing fuel (op :: ops) s = some t ↔
        ∃ u, runOp c timing fuel op s = some u ∧ runProgram c timing fuel ops u = some t

/-- R21, R22, R30–R36, R39–R43, R45, R61: the register behind each word of the window, in every state (STATUS and the
constant words have their own statements). -/
def Obligations.EveryWordReadsItsRegister : Prop :=
  ∀ s : State,
    busRead s 0 = (if s.ie then 1 else 0) ∧ busRead s 3 = s.conf.sampleRate ∧ busRead s 4 = s.conf.bits
      ∧ busRead s 5 = s.conf.freq ∧ busRead s 6 = (0 : BitVec 1) ++ s.conf.amplitude ∧ busRead s 7 = s.conf.numSamples
      ∧ busRead s 8 = s.conf.sampleIndex ∧ busRead s 9 = s.sampleResult ∧ busRead s 10 = s.conf.packIn
      ∧ busRead s 11 = s.packOut ∧ busRead s 12 = s.progress.sampleCount ∧ busRead s 13 = s.progress.dataBytes
      ∧ busRead s 14 = (0 : BitVec 26) ++ s.progress.hdrBytes
      ∧ ∀ k : Fin 11, busRead s (BitVec.ofNat 5 (16 + k)) = s.header[k]

/-- R85, R183, R190: lines that end. In a run with a byte on offer and the next ones offered at once, `SINK n` ends after `n`
cycles for every `n` up to the bytes left; and WAIT ends after two reads where the sequencer takes the execution step of an
accepted word other than START in the first, with the block IDLE again. -/
def Obligations.SinkAndWaitLinesEnd : Prop :=
  ∀ (c : Params) (timing : Nat → Edge) (s : State), s.Inv c → (∀ k, (timing k).offer = true ∧ (timing k).go = true) →
    (∀ n : Nat, s.seq = .stream → s.outValid = true → n ≤ s.snap.L - s.pos →
      ∃ t, runOp c timing n (.sink n) s = some t ∧ t.taken.length = s.taken.length + n
        ∧ (t.seq = .idle ↔ n = s.snap.L - s.pos))
    ∧ (s.seq = .exec → decode s.snap.word ≠ .command .start →
      ∃ t, runOp c timing 2 .wait s = some t ∧ t.seq = .idle ∧ t.status.done = true)

/-- R191–R193, R73: the sequencer's and the sink's part of an edge in STREAM, whole, in every state: the state after it is the
state before it with the byte taken, if one is, and the completion, if the run ends; the lanes aside, no other field changes. -/
def Obligations.StreamEdgeChangesTheRunAlone : Prop :=
  ∀ (c : Params) (e : Edge) (s : State), s.seq = .stream →
    let takes := s.outValid = true ∧ e.ready = true
    let taken := if takes then { data := (s.ports c.sine).outData, last := (s.ports c.sine).outLast } :: s.taken else s.taken
    let progress := if takes then s.progress.count s.pos s.snap.B else s.progress
    ∃ s1, sequencerEdge c (execWith c.sine) e s = .next s1
      ∧ (e.err = true → s1 = complete .ioFailure .sinkError { s with taken := taken, progress := progress })
      ∧ (e.err = false → takes ∧ s.pos = s.snap.L - 1 →
          s1 = complete .none .none { s with taken := taken, progress := progress })
      ∧ (e.err = false → ¬(takes ∧ s.pos = s.snap.L - 1) →
          s1 = { s with taken := taken, progress := progress, outValid := s.outValid && !e.ready, lanes := s1.lanes })
end

