-- ==== Sys2Proof/Laws/Bytes.lean ====
section
/-! SUPPORT. Byte layouts: single bytes, little-endian fields, the header and its window, packed samples. -/

namespace Sys2Proof.Machine

open Sys2Proof

@[simp] theorem byteOf_toNat (v j : Nat) : (byteOf v j).toNat = v / 256 ^ j % 256 := by
  simp [byteOf, Nat.shiftRight_eq_div_pow, pow_mul]

/-- Four bytes of a number, the most significant first, are its 32-bit word. -/
theorem word_of_bytes (x : Nat) : byteOf x 3 ++ byteOf x 2 ++ byteOf x 1 ++ byteOf x 0 = BitVec.ofNat 32 x := by
  apply BitVec.eq_of_toNat_eq
  simp only [BitVec.toNat_append, byteOf_toNat, BitVec.toNat_ofNat, Nat.shiftLeft_eq]
  rw [← Nat.shiftLeft_eq, ← Nat.shiftLeft_eq, ← Nat.shiftLeft_eq]
  rw [← Nat.shiftLeft_add_eq_or_of_lt (by omega), ← Nat.shiftLeft_add_eq_or_of_lt (by omega),
    ← Nat.shiftLeft_add_eq_or_of_lt (by omega)]
  simp only [Nat.shiftLeft_eq]
  omega

theorem leValue_le32 {x : Nat} (h : x < 2 ^ 32) : leValue (le32 x) = x := by
  simp only [le32, leValue, byteOf_toNat]
  omega

theorem leValue_le16 {x : Nat} (h : x < 2 ^ 16) : leValue (le16 x) = x := by
  simp only [le16, leValue, byteOf_toNat]
  omega

@[simp] theorem headerBytes_length (sr bits B D : Nat) : (headerBytes sr bits B D).length = 44 := rfl

@[simp] theorem packOne_length (S : Int) (B : Nat) : (packOne S B).length = B := by simp [packOne]

@[simp] theorem packOne_getElem (S : Int) (B j : Nat) (h : j < (packOne S B).length) :
    (packOne S B)[j] = byteOf (lowBytes S B) j := by simp [packOne]

theorem lowBytes_lt (S : Int) (B : Nat) : lowBytes S B < 2 ^ (8 * B) := by
  have h1 := Int.emod_lt_of_pos S (show (0 : Int) < 2 ^ (8 * B) by positivity)
  have h2 := Int.emod_nonneg S (show (2 : Int) ^ (8 * B) ≠ 0 by positivity)
  rw [lowBytes]
  zify
  rw [Int.toNat_of_nonneg h2]
  exact h1

/-- The bytes of a number, least significant first, are the number, when they are enough. -/
theorem leValue_bytes (x B : Nat) (h : x < 256 ^ B) : leValue ((List.range B).map fun j => byteOf x j) = x := by
  induction B generalizing x with
  | zero => simp at h; simp [leValue, h]
  | succ B ih =>
    rw [List.range_succ_eq_map, List.map_cons, leValue, List.map_map]
    have hshift : ((fun j => byteOf x j) ∘ Nat.succ) = fun j => byteOf (x / 256) j := by
      funext j
      apply BitVec.eq_of_toNat_eq
      simp [Nat.pow_succ', Nat.div_div_eq_div_mul]
    rw [hshift, ih (x / 256) (Nat.div_lt_of_lt_mul (by rwa [Nat.pow_succ'] at h)), byteOf_toNat]
    omega

/-- Packing loses nothing of the cut sample (R161, R162). -/
theorem leValue_packOne (S : Int) (B : Nat) : leValue (packOne S B) = lowBytes S B :=
  leValue_bytes _ _ (by have := lowBytes_lt S B; rwa [pow_mul] at this)

/-- The header window of R136, from the bytes of R135. -/
theorem headerWindow_headerBytes (sr bits B D : Nat) (hB : B < 2 ^ 16) :
    headerWindow (headerBytes sr bits B D) = #v[0x46464952, BitVec.ofNat 32 (D + 36), 0x45564157, 0x20746D66, 0x00000010,
      0x00010001, BitVec.ofNat 32 sr, BitVec.ofNat 32 (sr * B), BitVec.ofNat 32 (bits * 65536 + B), 0x61746164,
      BitVec.ofNat 32 D] := by
  have halves : byteOf bits 1 ++ byteOf bits 0 ++ byteOf B 1 ++ byteOf B 0 = BitVec.ofNat 32 (bits * 65536 + B) := by
    rw [← word_of_bytes]
    congr 1 <;> [congr 1 <;> [congr 1; skip]; skip] <;> apply BitVec.eq_of_toNat_eq <;> simp only [byteOf_toNat] <;> omega
  apply Vector.ext
  intro k hk
  simp only [headerWindow, Vector.getElem_ofFn, headerWord, headerBytes, tagRiff, tagWave, tagFmt, tagData, le32, le16,
    List.cons_append, List.nil_append]
  interval_cases k <;> simp only [Nat.reduceMul, Nat.reduceAdd, List.getD_cons_succ, List.getD_cons_zero]
  · show _ = (0x46464952 : Word); decide
  · exact word_of_bytes _
  · show _ = (0x45564157 : Word); decide
  · show _ = (0x20746D66 : Word); decide
  · show _ = (0x00000010 : Word); decide
  · show _ = (0x00010001 : Word); decide
  · exact word_of_bytes _
  · exact word_of_bytes _
  · exact halves
  · show _ = (0x61746164 : Word); decide
  · exact word_of_bytes _

end Sys2Proof.Machine
end

