-- ==== Sys2Proof/Laws/State.lean ====
section
/-! SUPPORT. One lemma for each field of State after each shared update: what the update leaves there. -/

namespace Sys2Proof.Machine

open Sys2Proof

/-! ### `accept` (R181) -/

@[simp] theorem accept_ie (v : Word) (s : State) : (accept v s).ie = s.ie := rfl
@[simp] theorem accept_status (v : Word) (s : State) : (accept v s).status = s.status.accepted v := rfl
@[simp] theorem accept_conf (v : Word) (s : State) : (accept v s).conf = s.conf := rfl
@[simp] theorem accept_sampleResult (v : Word) (s : State) : (accept v s).sampleResult = s.sampleResult := rfl
@[simp] theorem accept_packOut (v : Word) (s : State) : (accept v s).packOut = s.packOut := rfl
@[simp] theorem accept_progress (v : Word) (s : State) :
    (accept v s).progress = if decode v = .command .start then .zero else s.progress := rfl
@[simp] theorem accept_header (v : Word) (s : State) : (accept v s).header = s.header := rfl
@[simp] theorem accept_seq (v : Word) (s : State) : (accept v s).seq = .exec := rfl
@[simp] theorem accept_snap (v : Word) (s : State) : (accept v s).snap = { word := v, conf := s.conf } := rfl
@[simp] theorem accept_outValid (v : Word) (s : State) : (accept v s).outValid = s.outValid := rfl
@[simp] theorem accept_lanes (v : Word) (s : State) : (accept v s).lanes = s.lanes := rfl
@[simp] theorem accept_edges (v : Word) (s : State) : (accept v s).edges = s.edges := rfl
@[simp] theorem accept_taken (v : Word) (s : State) : (accept v s).taken = s.taken := rfl
@[simp] theorem accept_readData (v : Word) (s : State) : (accept v s).readData = s.readData := rfl
@[simp] theorem accept_clock (v : Word) (s : State) : (accept v s).clock = s.clock := rfl

/-! ### `drop` (R182) -/

@[simp] theorem drop_ie (s : State) : (drop s).ie = s.ie := rfl
@[simp] theorem drop_status (s : State) : (drop s).status = s.status.dropped := rfl
@[simp] theorem drop_conf (s : State) : (drop s).conf = s.conf := rfl
@[simp] theorem drop_sampleResult (s : State) : (drop s).sampleResult = s.sampleResult := rfl
@[simp] theorem drop_packOut (s : State) : (drop s).packOut = s.packOut := rfl
@[simp] theorem drop_progress (s : State) : (drop s).progress = s.progress := rfl
@[simp] theorem drop_header (s : State) : (drop s).header = s.header := rfl
@[simp] theorem drop_seq (s : State) : (drop s).seq = s.seq := rfl
@[simp] theorem drop_snap (s : State) : (drop s).snap = s.snap := rfl
@[simp] theorem drop_outValid (s : State) : (drop s).outValid = s.outValid := rfl
@[simp] theorem drop_lanes (s : State) : (drop s).lanes = s.lanes := rfl
@[simp] theorem drop_edges (s : State) : (drop s).edges = s.edges := rfl
@[simp] theorem drop_taken (s : State) : (drop s).taken = s.taken := rfl
@[simp] theorem drop_readData (s : State) : (drop s).readData = s.readData := rfl
@[simp] theorem drop_clock (s : State) : (drop s).clock = s.clock := rfl

/-! ### `complete` (R222) -/

@[simp] theorem complete_ie (k : ErrCode) (c : ErrCause) (s : State) : (complete k c s).ie = s.ie := rfl
@[simp] theorem complete_status (k : ErrCode) (c : ErrCause) (s : State) :
    (complete k c s).status = s.status.completed k c := rfl
@[simp] theorem complete_conf (k : ErrCode) (c : ErrCause) (s : State) : (complete k c s).conf = s.conf := rfl
@[simp] theorem complete_sampleResult (k : ErrCode) (c : ErrCause) (s : State) :
    (complete k c s).sampleResult = s.sampleResult := rfl
@[simp] theorem complete_packOut (k : ErrCode) (c : ErrCause) (s : State) : (complete k c s).packOut = s.packOut := rfl
@[simp] theorem complete_progress (k : ErrCode) (c : ErrCause) (s : State) :
    (complete k c s).progress = s.progress := rfl
@[simp] theorem complete_header (k : ErrCode) (c : ErrCause) (s : State) : (complete k c s).header = s.header := rfl
@[simp] theorem complete_seq (k : ErrCode) (c : ErrCause) (s : State) : (complete k c s).seq = .idle := rfl
@[simp] theorem complete_snap (k : ErrCode) (c : ErrCause) (s : State) : (complete k c s).snap = s.snap := rfl
@[simp] theorem complete_outValid (k : ErrCode) (c : ErrCause) (s : State) : (complete k c s).outValid = false := rfl
@[simp] theorem complete_lanes (k : ErrCode) (c : ErrCause) (s : State) : (complete k c s).lanes = [] := rfl
@[simp] theorem complete_edges (k : ErrCode) (c : ErrCause) (s : State) : (complete k c s).edges = s.edges := rfl
@[simp] theorem complete_taken (k : ErrCode) (c : ErrCause) (s : State) : (complete k c s).taken = s.taken := rfl
@[simp] theorem complete_readData (k : ErrCode) (c : ErrCause) (s : State) :
    (complete k c s).readData = s.readData := rfl
@[simp] theorem complete_clock (k : ErrCode) (c : ErrCause) (s : State) : (complete k c s).clock = s.clock := rfl

/-! ### `statusWrite` (R63) -/

@[simp] theorem statusWrite_ie (b : Bool) (v : Word) (s : State) : (statusWrite b v s).ie = s.ie := rfl
@[simp] theorem statusWrite_status (b : Bool) (v : Word) (s : State) :
    (statusWrite b v s).status = s.status.hostWrite b v := rfl
@[simp] theorem statusWrite_conf (b : Bool) (v : Word) (s : State) : (statusWrite b v s).conf = s.conf := rfl
@[simp] theorem statusWrite_sampleResult (b : Bool) (v : Word) (s : State) :
    (statusWrite b v s).sampleResult = s.sampleResult := rfl
@[simp] theorem statusWrite_packOut (b : Bool) (v : Word) (s : State) : (statusWrite b v s).packOut = s.packOut := rfl
@[simp] theorem statusWrite_progress (b : Bool) (v : Word) (s : State) :
    (statusWrite b v s).progress = s.progress := rfl
@[simp] theorem statusWrite_header (b : Bool) (v : Word) (s : State) : (statusWrite b v s).header = s.header := rfl
@[simp] theorem statusWrite_seq (b : Bool) (v : Word) (s : State) : (statusWrite b v s).seq = s.seq := rfl
@[simp] theorem statusWrite_snap (b : Bool) (v : Word) (s : State) : (statusWrite b v s).snap = s.snap := rfl
@[simp] theorem statusWrite_outValid (b : Bool) (v : Word) (s : State) :
    (statusWrite b v s).outValid = s.outValid := rfl
@[simp] theorem statusWrite_lanes (b : Bool) (v : Word) (s : State) : (statusWrite b v s).lanes = s.lanes := rfl
@[simp] theorem statusWrite_edges (b : Bool) (v : Word) (s : State) : (statusWrite b v s).edges = s.edges := rfl
@[simp] theorem statusWrite_taken (b : Bool) (v : Word) (s : State) : (statusWrite b v s).taken = s.taken := rfl
@[simp] theorem statusWrite_readData (b : Bool) (v : Word) (s : State) :
    (statusWrite b v s).readData = s.readData := rfl
@[simp] theorem statusWrite_clock (b : Bool) (v : Word) (s : State) : (statusWrite b v s).clock = s.clock := rfl

/-! ### `beginEdge` (log 1) -/

@[simp] theorem beginEdge_ie (e : Edge) (s : State) : (beginEdge e s).ie = s.ie := rfl
@[simp] theorem beginEdge_status (e : Edge) (s : State) : (beginEdge e s).status = s.status := rfl
@[simp] theorem beginEdge_conf (e : Edge) (s : State) : (beginEdge e s).conf = s.conf := rfl
@[simp] theorem beginEdge_sampleResult (e : Edge) (s : State) : (beginEdge e s).sampleResult = s.sampleResult := rfl
@[simp] theorem beginEdge_packOut (e : Edge) (s : State) : (beginEdge e s).packOut = s.packOut := rfl
@[simp] theorem beginEdge_progress (e : Edge) (s : State) : (beginEdge e s).progress = s.progress := rfl
@[simp] theorem beginEdge_header (e : Edge) (s : State) : (beginEdge e s).header = s.header := rfl
@[simp] theorem beginEdge_seq (e : Edge) (s : State) : (beginEdge e s).seq = s.seq := rfl
@[simp] theorem beginEdge_snap (e : Edge) (s : State) : (beginEdge e s).snap = s.snap := rfl
@[simp] theorem beginEdge_outValid (e : Edge) (s : State) : (beginEdge e s).outValid = s.outValid := rfl
@[simp] theorem beginEdge_lanes (e : Edge) (s : State) : (beginEdge e s).lanes = s.lanes := rfl
@[simp] theorem beginEdge_edges (e : Edge) (s : State) : (beginEdge e s).edges = s.edges.tail := rfl
@[simp] theorem beginEdge_taken (e : Edge) (s : State) : (beginEdge e s).taken = s.taken := rfl
@[simp] theorem beginEdge_readData (e : Edge) (s : State) : (beginEdge e s).readData = readValue e s := rfl
@[simp] theorem beginEdge_clock (e : Edge) (s : State) : (beginEdge e s).clock = s.clock + 1 := rfl

/-! ### `takeByte` (R66) -/

@[simp] theorem takeByte_ie (i : SineImpl) (s : State) : (takeByte i s).ie = s.ie := rfl
@[simp] theorem takeByte_status (i : SineImpl) (s : State) : (takeByte i s).status = s.status := rfl
@[simp] theorem takeByte_conf (i : SineImpl) (s : State) : (takeByte i s).conf = s.conf := rfl
@[simp] theorem takeByte_sampleResult (i : SineImpl) (s : State) : (takeByte i s).sampleResult = s.sampleResult := rfl
@[simp] theorem takeByte_packOut (i : SineImpl) (s : State) : (takeByte i s).packOut = s.packOut := rfl
@[simp] theorem takeByte_progress (i : SineImpl) (s : State) :
    (takeByte i s).progress = s.progress.count s.pos s.snap.B := rfl
@[simp] theorem takeByte_header (i : SineImpl) (s : State) : (takeByte i s).header = s.header := rfl
@[simp] theorem takeByte_seq (i : SineImpl) (s : State) : (takeByte i s).seq = s.seq := rfl
@[simp] theorem takeByte_snap (i : SineImpl) (s : State) : (takeByte i s).snap = s.snap := rfl
@[simp] theorem takeByte_outValid (i : SineImpl) (s : State) : (takeByte i s).outValid = false := rfl
@[simp] theorem takeByte_lanes (i : SineImpl) (s : State) :
    (takeByte i s).lanes = s.lanes.filter fun l => decide (s.snap.sampleIndexAt (s.pos + 1) ≤ l.index) := rfl
@[simp] theorem takeByte_edges (i : SineImpl) (s : State) : (takeByte i s).edges = s.edges := rfl
@[simp] theorem takeByte_taken (i : SineImpl) (s : State) :
    (takeByte i s).taken = { data := s.offeredByte i, last := s.offeredLast } :: s.taken := rfl
@[simp] theorem takeByte_readData (i : SineImpl) (s : State) : (takeByte i s).readData = s.readData := rfl
@[simp] theorem takeByte_clock (i : SineImpl) (s : State) : (takeByte i s).clock = s.clock := rfl

/-! ### `present` (R190) and the lanes (R197): the fields they never change -/

@[simp] theorem present_ie (e : Edge) (s : State) : (present e s).ie = s.ie := by unfold present; split <;> rfl
@[simp] theorem present_status (e : Edge) (s : State) : (present e s).status = s.status := by unfold present; split <;> rfl
@[simp] theorem present_conf (e : Edge) (s : State) : (present e s).conf = s.conf := by unfold present; split <;> rfl
@[simp] theorem present_sampleResult (e : Edge) (s : State) : (present e s).sampleResult = s.sampleResult := by unfold present; split <;> rfl
@[simp] theorem present_packOut (e : Edge) (s : State) : (present e s).packOut = s.packOut := by unfold present; split <;> rfl
@[simp] theorem present_progress (e : Edge) (s : State) : (present e s).progress = s.progress := by unfold present; split <;> rfl
@[simp] theorem present_header (e : Edge) (s : State) : (present e s).header = s.header := by unfold present; split <;> rfl
@[simp] theorem present_seq (e : Edge) (s : State) : (present e s).seq = s.seq := by unfold present; split <;> rfl
@[simp] theorem present_snap (e : Edge) (s : State) : (present e s).snap = s.snap := by unfold present; split <;> rfl
@[simp] theorem present_lanes (e : Edge) (s : State) : (present e s).lanes = s.lanes := by unfold present; split <;> rfl
@[simp] theorem present_edges (e : Edge) (s : State) : (present e s).edges = s.edges := by unfold present; split <;> rfl
@[simp] theorem present_taken (e : Edge) (s : State) : (present e s).taken = s.taken := by unfold present; split <;> rfl
@[simp] theorem present_readData (e : Edge) (s : State) : (present e s).readData = s.readData := by unfold present; split <;> rfl
@[simp] theorem present_clock (e : Edge) (s : State) : (present e s).clock = s.clock := by unfold present; split <;> rfl

@[simp] theorem fillLane_ie (c : Params) (i : Nat) (s : State) : (fillLane c i s).ie = s.ie := by
  unfold fillLane; split <;> rfl
@[simp] theorem fillLane_status (c : Params) (i : Nat) (s : State) : (fillLane c i s).status = s.status := by
  unfold fillLane; split <;> rfl
@[simp] theorem fillLane_conf (c : Params) (i : Nat) (s : State) : (fillLane c i s).conf = s.conf := by
  unfold fillLane; split <;> rfl
@[simp] theorem fillLane_sampleResult (c : Params) (i : Nat) (s : State) : (fillLane c i s).sampleResult = s.sampleResult := by
  unfold fillLane; split <;> rfl
@[simp] theorem fillLane_packOut (c : Params) (i : Nat) (s : State) : (fillLane c i s).packOut = s.packOut := by
  unfold fillLane; split <;> rfl
@[simp] theorem fillLane_progress (c : Params) (i : Nat) (s : State) : (fillLane c i s).progress = s.progress := by
  unfold fillLane; split <;> rfl
@[simp] theorem fillLane_header (c : Params) (i : Nat) (s : State) : (fillLane c i s).header = s.header := by
  unfold fillLane; split <;> rfl
@[simp] theorem fillLane_seq (c : Params) (i : Nat) (s : State) : (fillLane c i s).seq = s.seq := by
  unfold fillLane; split <;> rfl
@[simp] theorem fillLane_snap (c : Params) (i : Nat) (s : State) : (fillLane c i s).snap = s.snap := by
  unfold fillLane; split <;> rfl
@[simp] theorem fillLane_outValid (c : Params) (i : Nat) (s : State) : (fillLane c i s).outValid = s.outValid := by
  unfold fillLane; split <;> rfl
@[simp] theorem fillLane_edges (c : Params) (i : Nat) (s : State) : (fillLane c i s).edges = s.edges := by
  unfold fillLane; split <;> rfl
@[simp] theorem fillLane_taken (c : Params) (i : Nat) (s : State) : (fillLane c i s).taken = s.taken := by
  unfold fillLane; split <;> rfl
@[simp] theorem fillLane_readData (c : Params) (i : Nat) (s : State) : (fillLane c i s).readData = s.readData := by
  unfold fillLane; split <;> rfl
@[simp] theorem fillLane_clock (c : Params) (i : Nat) (s : State) : (fillLane c i s).clock = s.clock := by
  unfold fillLane; split <;> rfl

@[simp] theorem laneWork_ie (c : Params) (e : Edge) (s : State) : (laneWork c e s).ie = s.ie := by
  unfold laneWork; split <;> simp
@[simp] theorem laneWork_status (c : Params) (e : Edge) (s : State) : (laneWork c e s).status = s.status := by
  unfold laneWork; split <;> simp
@[simp] theorem laneWork_conf (c : Params) (e : Edge) (s : State) : (laneWork c e s).conf = s.conf := by
  unfold laneWork; split <;> simp
@[simp] theorem laneWork_sampleResult (c : Params) (e : Edge) (s : State) : (laneWork c e s).sampleResult = s.sampleResult := by
  unfold laneWork; split <;> simp
@[simp] theorem laneWork_packOut (c : Params) (e : Edge) (s : State) : (laneWork c e s).packOut = s.packOut := by
  unfold laneWork; split <;> simp
@[simp] theorem laneWork_progress (c : Params) (e : Edge) (s : State) : (laneWork c e s).progress = s.progress := by
  unfold laneWork; split <;> simp
@[simp] theorem laneWork_header (c : Params) (e : Edge) (s : State) : (laneWork c e s).header = s.header := by
  unfold laneWork; split <;> simp
@[simp] theorem laneWork_seq (c : Params) (e : Edge) (s : State) : (laneWork c e s).seq = s.seq := by
  unfold laneWork; split <;> simp
@[simp] theorem laneWork_snap (c : Params) (e : Edge) (s : State) : (laneWork c e s).snap = s.snap := by
  unfold laneWork; split <;> simp
@[simp] theorem laneWork_outValid (c : Params) (e : Edge) (s : State) : (laneWork c e s).outValid = s.outValid := by
  unfold laneWork; split <;> simp
@[simp] theorem laneWork_edges (c : Params) (e : Edge) (s : State) : (laneWork c e s).edges = s.edges := by
  unfold laneWork; split <;> simp
@[simp] theorem laneWork_taken (c : Params) (e : Edge) (s : State) : (laneWork c e s).taken = s.taken := by
  unfold laneWork; split <;> simp
@[simp] theorem laneWork_readData (c : Params) (e : Edge) (s : State) : (laneWork c e s).readData = s.readData := by
  unfold laneWork; split <;> simp
@[simp] theorem laneWork_clock (c : Params) (e : Edge) (s : State) : (laneWork c e s).clock = s.clock := by
  unfold laneWork; split <;> simp

/-! ### `plainWrite` (R62): CTRL and the configuration registers only -/

@[simp] theorem plainWrite_status (w : RegIndex) (v : Word) (s : State) : (plainWrite w v s).status = s.status := by
  unfold plainWrite; split <;> rfl
@[simp] theorem plainWrite_sampleResult (w : RegIndex) (v : Word) (s : State) : (plainWrite w v s).sampleResult = s.sampleResult := by
  unfold plainWrite; split <;> rfl
@[simp] theorem plainWrite_packOut (w : RegIndex) (v : Word) (s : State) : (plainWrite w v s).packOut = s.packOut := by
  unfold plainWrite; split <;> rfl
@[simp] theorem plainWrite_progress (w : RegIndex) (v : Word) (s : State) : (plainWrite w v s).progress = s.progress := by
  unfold plainWrite; split <;> rfl
@[simp] theorem plainWrite_header (w : RegIndex) (v : Word) (s : State) : (plainWrite w v s).header = s.header := by
  unfold plainWrite; split <;> rfl
@[simp] theorem plainWrite_seq (w : RegIndex) (v : Word) (s : State) : (plainWrite w v s).seq = s.seq := by
  unfold plainWrite; split <;> rfl
@[simp] theorem plainWrite_snap (w : RegIndex) (v : Word) (s : State) : (plainWrite w v s).snap = s.snap := by
  unfold plainWrite; split <;> rfl
@[simp] theorem plainWrite_outValid (w : RegIndex) (v : Word) (s : State) : (plainWrite w v s).outValid = s.outValid := by
  unfold plainWrite; split <;> rfl
@[simp] theorem plainWrite_lanes (w : RegIndex) (v : Word) (s : State) : (plainWrite w v s).lanes = s.lanes := by
  unfold plainWrite; split <;> rfl
@[simp] theorem plainWrite_edges (w : RegIndex) (v : Word) (s : State) : (plainWrite w v s).edges = s.edges := by
  unfold plainWrite; split <;> rfl
@[simp] theorem plainWrite_taken (w : RegIndex) (v : Word) (s : State) : (plainWrite w v s).taken = s.taken := by
  unfold plainWrite; split <;> rfl
@[simp] theorem plainWrite_readData (w : RegIndex) (v : Word) (s : State) : (plainWrite w v s).readData = s.readData := by
  unfold plainWrite; split <;> rfl
@[simp] theorem plainWrite_clock (w : RegIndex) (v : Word) (s : State) : (plainWrite w v s).clock = s.clock := by
  unfold plainWrite; split <;> rfl

end Sys2Proof.Machine
end

