-- ==== Sys2Proof/Laws/Ops.lean ====
section
/-! SUPPORT. What each shared operation can answer, said once: the check lists, the meanings of the commands, the sequencer's
and the host's part of an edge. -/

namespace Sys2Proof.Machine

open Sys2Proof

variable {impl : SineImpl} {c : Params} {i : Instr} {e : Edge} {s t : State} {v : Word} {w : RegIndex} {busy completion : Bool}

@[simp] theorem andThen_next (s : State) (f : State → Outcome State Fault Refusal) : andThen (.next s) f = f s := rfl

theorem andThen_eq_next {o : Outcome State Fault Refusal} {f : State → Outcome State Fault Refusal}
    (h : andThen o f = .next t) : ∃ s, o = .next s ∧ f s = .next t := by
  cases o with
  | next s => exact ⟨s, rfl, h⟩
  | fault r => nomatch r
  | refused r => simp [andThen] at h

@[simp] theorem firstFailing_cons (b : Bool) (cause : ErrCause) (l : List (Bool × ErrCause)) :
    firstFailing ((b, cause) :: l) = if b then some cause else firstFailing l := by
  cases b <;> rfl

@[simp] theorem firstFailing_nil : firstFailing [] = none := rfl

theorem legalBits_iff (bits : Nat) : legalBits bits = true ↔ bits = 8 ∨ bits = 16 ∨ bits = 24 ∨ bits = 32 := by
  simp [legalBits, or_assoc]

theorem firstFailing_none_iff (l : List (Bool × ErrCause)) : firstFailing l = none ↔ ∀ k ∈ l, k.1 = false := by
  simp only [firstFailing, List.findSome?_eq_none_iff]
  refine forall₂_congr fun k _ => ?_
  cases k.1 <;> simp

/-- HEADER's checks all pass exactly on the conditions of R137. -/
theorem headerChecks_none_iff (n : Snapshot) :
    firstFailing (headerChecks n) = none ↔
      (n.bits = 8 ∨ n.bits = 16 ∨ n.bits = 24 ∨ n.bits = 32) ∧ 0 < n.sr ∧ n.D ≤ 0xFFFFFFDB ∧ n.sr * n.B ≤ 0xFFFFFFFF := by
  rw [firstFailing_none_iff, ← legalBits_iff, Nat.pos_iff_ne_zero]
  simp [headerChecks, checkBits, checkRate, checkSize, checkByteRate]
  simp [maxDataBytes, maxField]

/-- START's checks all pass exactly on a valid snapshot (R185). -/
theorem startChecks_none_iff (n : Snapshot) : firstFailing (startChecks n) = none ↔ n.Valid := by
  rw [firstFailing_none_iff, Snapshot.Valid, ← legalBits_iff, Nat.pos_iff_ne_zero, Nat.pos_iff_ne_zero]
  simp [startChecks, checkBits, checkRate, checkCount, checkNyquist, checkSize, checkByteRate]
  simp [maxDataBytes, maxField]

/-- A check that fails reports a cause of its own: never NONE. -/
theorem firstFailing_startChecks_ne_none {n : Snapshot} {cause : ErrCause} (h : firstFailing (startChecks n) = some cause) :
    cause.code = .invalidArgument ∨ cause.code = .overflow := by
  simp only [startChecks, checkBits, checkRate, checkCount, checkNyquist, checkSize, checkByteRate, firstFailing_cons,
    firstFailing_nil] at h
  split_ifs at h <;> cases h <;> simp [ErrCause.code]

theorem firstFailing_headerChecks_ne_none {n : Snapshot} {cause : ErrCause} (h : firstFailing (headerChecks n) = some cause) :
    cause.code = .invalidArgument ∨ cause.code = .overflow := by
  simp only [headerChecks, checkBits, checkRate, checkSize, checkByteRate, firstFailing_cons, firstFailing_nil] at h
  split_ifs at h <;> cases h <;> simp [ErrCause.code]

/-- What a command's execution can answer: NOP nothing, an error its completion, and each command its own effect. -/
inductive ExecCase (impl : SineImpl) (s : State) : Instr → State → Prop where
  | nop : ExecCase impl s .nop s
  | failed {i : Instr} (cause : ErrCause) (h : cause.code = .invalidArgument ∨ cause.code = .overflow) (hi : i ≠ .nop) :
      ExecCase impl s i (raise cause s)
  | sample (h : 0 < s.snap.sr) : ExecCase impl s .sample (complete .none .none
      { s with sampleResult := BitVec.ofNat 32 (lowBytes (s.snap.sampleAt impl s.snap.i) 4) })
  | header : ExecCase impl s .header (complete .none .none { s with header := headerWindow s.snap.headerBytes })
  | pack : ExecCase impl s .pack (complete .none .none
      { s with packOut := BitVec.ofNat 32 (lowBytes s.snap.pin s.snap.B) })
  | start (h : s.snap.Valid) : ExecCase impl s .start
      { s with header := headerWindow s.snap.headerBytes, seq := .stream, outValid := false, lanes := [] }

/-- Every command completes its execution step, in one of the cases of `ExecCase`. -/
theorem execWith_spec (impl : SineImpl) (i : Instr) (s : State) : ∃ t, execWith impl i s = .next t ∧ ExecCase impl s i t := by
  cases i with
  | nop => exact ⟨s, rfl, .nop⟩
  | sample =>
    simp only [execWith, execSampleWith]
    split
    · exact ⟨_, rfl, .failed .rateZero (.inl rfl) (by simp)⟩
    · exact ⟨_, rfl, .sample (by omega)⟩
  | header =>
    simp only [execWith, exec, execHeader]
    split
    · exact ⟨_, rfl, .failed _ (firstFailing_headerChecks_ne_none ‹_›) (by simp)⟩
    · exact ⟨_, rfl, .header⟩
  | pack =>
    simp only [execWith, exec, execPack, checkBits, firstFailing_cons, firstFailing_nil]
    cases legalBits s.snap.bits
    · exact ⟨_, rfl, .failed .bitsIllegal (.inl rfl) (by simp)⟩
    · exact ⟨_, rfl, .pack⟩
  | start =>
    simp only [execWith, exec, execStart]
    split
    · exact ⟨_, rfl, .failed _ (firstFailing_startChecks_ne_none ‹_›) (by simp)⟩
    · exact ⟨_, rfl, .start ((startChecks_none_iff _).mp ‹_›)⟩

theorem execWith_cases (h : execWith impl i s = .next t) : ExecCase impl s i t := by
  obtain ⟨t', h', hc⟩ := execWith_spec impl i s
  rw [h] at h'
  cases h'
  exact hc

/-- The default machine's commands are those of the EXACT machine (log 3). -/
theorem execWith_device (i : Instr) (s : State) : execWith Config.device.sine i s = exec i s := by cases i <;> rfl

/-- A machine's quantizer reaches no host write: the write runs NOP at most. -/
theorem busWrite_execWith (impl : SineImpl) : busWrite (execWith impl) = busWrite exec := rfl

/-- What the sequencer can do at an edge. -/
inductive SequencerCase (c : Params) (e : Edge) (s : State) : State → Prop where
  | idle (h : s.seq = .idle) : SequencerCase c e s s
  | waits (h : s.seq = .exec) (hg : e.go = false) : SequencerCase c e s s
  | command {i : Instr} {t : State} (h : s.seq = .exec) (hg : e.go = true) (hd : decode s.snap.word = .command i)
      (ht : ExecCase c.sine s i t) : SequencerCase c e s t
  | illegal {why : IllegalWord} (h : s.seq = .exec) (hg : e.go = true) (hd : decode s.snap.word = .illegal why) :
      SequencerCase c e s (raise .badOpcode s)
  | stream (h : s.seq = .stream) : SequencerCase c e s (streamEdge c e s)

theorem sequencerEdge_spec (c : Params) (e : Edge) (s : State) :
    ∃ t, sequencerEdge c (execWith c.sine) e s = .next t ∧ SequencerCase c e s t := by
  unfold sequencerEdge runCommand
  rcases h : s.seq with _ | _ | _ <;> simp only
  · exact ⟨s, rfl, .idle h⟩
  · cases hg : e.go with
    | false => exact ⟨s, rfl, .waits h hg⟩
    | true =>
      rcases hd : decode s.snap.word with i | why
      · obtain ⟨t, ht, hc⟩ := execWith_spec c.sine i s
        exact ⟨t, ht, .command h hg hd hc⟩
      · exact ⟨_, rfl, .illegal h hg hd⟩
  · exact ⟨_, rfl, .stream h⟩

/-- What the host's part of an edge can do. -/
inductive HostCase (e : Edge) (busyBefore : Bool) (s : State) : State → Prop where
  | noWrite (h : ∀ w v, e.access ≠ .write w v) : HostCase e busyBefore s s
  | dropped (v : Word) (h : e.access = .write 1 v) (hb : busyBefore = true) : HostCase e busyBefore s (drop s)
  | nop (v : Word) (h : e.access = .write 1 v) (hb : busyBefore = false) (hd : decode v = .command .nop) :
      HostCase e busyBefore s s
  | accepted (v : Word) (h : e.access = .write 1 v) (hb : busyBefore = false) (hd : decode v ≠ .command .nop) :
      HostCase e busyBefore s (accept v s)
  | status (v : Word) (h : e.access = .write 2 v) :
      HostCase e busyBefore s (statusWrite (busyBefore && !s.busy) v s)
  | plain (w : RegIndex) (v : Word) (h : e.access = .write w v) (h1 : w ≠ 1) (h2 : w ≠ 2) :
      HostCase e busyBefore s (plainWrite w v s)

theorem hostWrite_spec (impl : SineImpl) (e : Edge) (busyBefore : Bool) (s : State) :
    ∃ t, hostWrite (execWith impl) e busyBefore s = .next t ∧ HostCase e busyBefore s t := by
  unfold hostWrite
  rcases ha : e.access with _ | w | ⟨w, v⟩
  · exact ⟨s, rfl, .noWrite (by simp [ha])⟩
  · exact ⟨s, rfl, .noWrite (by simp [ha])⟩
  · simp only [busWrite, command]
    split_ifs with h1 hb hd h2
    · subst h1; exact ⟨_, rfl, .dropped v ha hb⟩
    · subst h1; exact ⟨s, rfl, .nop v ha (by simpa using hb) hd⟩
    · subst h1; exact ⟨_, rfl, .accepted v ha (by simpa using hb) hd⟩
    · subst h2; exact ⟨_, rfl, .status v ha⟩
    · exact ⟨_, rfl, .plain w v ha h1 h2⟩

/-- What one edge does: reset, or the sequencer and then the host. -/
theorem edgeStep_spec (c : Params) (e : Edge) (s : State) :
    ∃ t, edgeStep c (execWith c.sine) e s = .next t ∧
      (e.rst = true ∧ t = resetEdge e s ∨ e.rst = false ∧ ∃ s1, SequencerCase c e (beginEdge e s) s1
        ∧ HostCase e s.busy (present e s1) t) := by
  unfold edgeStep
  cases hr : e.rst with
  | true => exact ⟨_, rfl, .inl ⟨rfl, rfl⟩⟩
  | false =>
    obtain ⟨s1, h1, c1⟩ := sequencerEdge_spec c e (beginEdge e s)
    obtain ⟨t, ht, ct⟩ := hostWrite_spec c.sine e s.busy (present e s1)
    exact ⟨t, by simp [h1, ht], .inr ⟨rfl, s1, c1, ct⟩⟩

theorem stepWith_cases (h : stepWith c s = .next t) :
    s.nextEdge.rst = true ∧ t = resetEdge s.nextEdge s ∨ s.nextEdge.rst = false ∧
      ∃ s1, SequencerCase c s.nextEdge (beginEdge s.nextEdge s) s1 ∧ HostCase s.nextEdge s.busy (present s.nextEdge s1) t := by
  obtain ⟨t', ht, hc⟩ := edgeStep_spec c s.nextEdge s
  rw [stepWith, ht] at h
  cases h
  exact hc

end Sys2Proof.Machine
end

