-- ==== Sys2Proof/Laws/HostProgram.lean ====
section
/-! SUPPORT. What driving a host operation can end in: the last of its steps, which ends it. -/

namespace Sys2Proof.Machine

open Sys2Proof

variable {c : Params} {timing : Nat → Edge} {op : HostOp} {s t u : State} {fuel : Nat}

/-- An expansion is a core operation, which stands for itself (R86). -/
@[simp] theorem expand_expand (op : HostOp) : expand (expand op) = expand op := by cases op <;> rfl

/-- An operation that ends has ended by a step on its own edge, and is over there. -/
theorem drive_eq_some (h : drive c timing op s fuel t = some u) :
    opDone op s u = true ∧ ∃ t' : State, stepWith c { t' with edges := hostEdge timing op t' :: t'.edges } = .next u := by
  induction fuel generalizing t with
  | zero => simp [drive] at h
  | succ fuel ih =>
    unfold drive at h
    split at h
    next u' hu =>
      split at h
      next hd => cases h; exact ⟨hd, t, hu⟩
      next => exact ih h
    next => cases h
    next => cases h

/-- An operation of one cycle ends with its first step. -/
theorem drive_one (hd : ∀ u, opDone op s u = true) : drive c timing op s (fuel + 1) t = some u ↔
    stepWith c { t with edges := hostEdge timing op t :: t.edges } = .next u := by
  unfold drive
  obtain ⟨v, hv, _⟩ := edgeStep_spec c (hostEdge timing op t) { t with edges := hostEdge timing op t :: t.edges }
  rw [show stepWith c { t with edges := hostEdge timing op t :: t.edges } = .next v from hv]
  simp [hd]

/-- Driving depends on the operation through its edges, and on where it began through when it is over. -/
theorem drive_congr {op' : HostOp} {s' : State} (he : ∀ u, hostEdge timing op u = hostEdge timing op' u)
    (hd : ∀ u, opDone op s u = opDone op' s' u) : drive c timing op s fuel t = drive c timing op' s' fuel t := by
  induction fuel generalizing t with
  | zero => rfl
  | succ fuel ih => simp only [drive, he, hd, ih]

/-- The sink takes at most one byte at an edge (R66). -/
theorem stepWith_taken (hr : s.nextEdge.rst = false) (h : stepWith c s = .next t) :
    t.taken = s.taken ∨ t.taken.length = s.taken.length + 1 := by
  rcases stepWith_cases h with ⟨h0, _⟩ | ⟨_, s1, h1, h2⟩
  · simp [hr] at h0
  · have hk : s1.taken = s.taken ∨ s1.taken.length = s.taken.length + 1 := by
      cases h1 with
      | command h hg hd ht => cases ht <;> simp [raise]
      | stream h => unfold streamEdge; simp only; split_ifs <;> simp [raise]
      | _ => simp [raise]
    cases h2 <;> simpa using hk

/-- An edge keeps what its read returned, to its end. -/
theorem stepWith_readData (hr : s.nextEdge.rst = false) (h : stepWith c s = .next t) :
    t.readData = readValue s.nextEdge s := by
  rcases stepWith_cases h with ⟨h0, _⟩ | ⟨_, s1, h1, h2⟩
  · simp [hr] at h0
  · have hk : s1.readData = readValue s.nextEdge s := by
      cases h1 with
      | command h hg hd ht => cases ht <;> simp [raise]
      | stream h => unfold streamEdge; simp only; split_ifs <;> simp [raise]
      | _ => simp [raise]
    cases h2 <;> simpa using hk

end Sys2Proof.Machine
end

