-- ==== Sys2Proof/Laws/PerInstr.lean ====
section
/-! SUPPORT. Facts about each command as syntax: one family, one lemma per constructor. -/

namespace Sys2Proof.Laws.RoundTrip

open Sys2Proof

/-- A command is well formed, its word has zeros above the opcode (R80), and decodes to it (R81, R82). -/
def Statement (i : Instr) : Prop :=
  i.wellFormed = true ∧ rsvField (encode i) = 0 ∧ opField (encode i) = i.opcode ∧ decode (encode i) = .command i

theorem nop : Statement .nop := by unfold Statement; decide
theorem start : Statement .start := by unfold Statement; decide
theorem sample : Statement .sample := by unfold Statement; decide
theorem header : Statement .header := by unfold Statement; decide
theorem pack : Statement .pack := by unfold Statement; decide

end Sys2Proof.Laws.RoundTrip
end

