-- ==== Sys2Proof/Laws/Rounding.lean ====
section
/-! SUPPORT. Facts about RHAZ (00_scope.md R9). -/

namespace Sys2Proof.Machine

variable {K : Type*} [Field K] [LinearOrder K] [FloorRing K]

theorem rhaz_of_nonneg {x : K} (h : 0 ≤ x) : rhaz x = ⌊x + 1 / 2⌋ := by simp [rhaz, h]

theorem rhaz_of_neg {x : K} (h : x < 0) : rhaz x = -⌊-x + 1 / 2⌋ := by simp [rhaz, not_le.mpr h]

variable [IsStrictOrderedRing K]

theorem rhaz_nonneg {x : K} (h : 0 ≤ x) : 0 ≤ rhaz x := by
  rw [rhaz_of_nonneg h]
  exact Int.floor_nonneg.mpr (by linarith [one_half_pos (α := K)])

@[simp] theorem rhaz_zero : rhaz (0 : K) = 0 := by
  rw [rhaz_of_nonneg le_rfl, Int.floor_eq_iff]
  norm_num

theorem rhaz_neg (x : K) : rhaz (-x) = -rhaz x := by
  rcases lt_trichotomy x 0 with h | rfl | h
  · rw [rhaz_of_nonneg (by linarith), rhaz_of_neg h, neg_neg]
  · simp
  · rw [rhaz_of_neg (by linarith), rhaz_of_nonneg h.le, neg_neg]

theorem rhaz_mono : Monotone (rhaz : K → Int) := by
  intro x y h
  have floorMono {a b : K} (hab : a ≤ b) : ⌊a + 1 / 2⌋ ≤ ⌊b + 1 / 2⌋ := Int.floor_mono (by linarith)
  rcases le_or_gt 0 x with hx | hx
  · rw [rhaz_of_nonneg hx, rhaz_of_nonneg (hx.trans h)]
    exact floorMono h
  · rcases le_or_gt 0 y with hy | hy
    · refine le_trans ?_ (rhaz_nonneg hy)
      have := rhaz_nonneg (x := -x) (by linarith)
      rw [rhaz_neg] at this
      omega
    · rw [rhaz_of_neg hx, rhaz_of_neg hy]
      have := floorMono (a := -y) (b := -x) (by linarith)
      omega

/-- A rounding is within one half of its argument. -/
theorem abs_sub_rhaz_le (x : K) : |x - rhaz x| ≤ 1 / 2 := by
  have key {y : K} (hy : 0 ≤ y) : |y - rhaz y| ≤ 1 / 2 := by
    rw [rhaz_of_nonneg hy, abs_le]
    constructor <;> linarith [Int.floor_le (y + 1 / 2), Int.lt_floor_add_one (y + 1 / 2)]
  rcases le_or_gt 0 x with hx | hx
  · exact key hx
  · have := key (y := -x) (by linarith)
    rw [rhaz_neg, Int.cast_neg] at this
    rwa [show x - (rhaz x : K) = -(-x - -(rhaz x : K)) by ring, abs_neg]

@[simp] theorem rhaz_natCast (n : Nat) : rhaz (n : K) = n := by
  rw [rhaz_of_nonneg (Nat.cast_nonneg n), Int.floor_eq_iff]
  constructor <;> push_cast <;> linarith [one_half_pos (α := K), one_half_lt_one (α := K)]

/-- Half of a natural number rounds up. -/
theorem rhaz_half (n : Nat) : rhaz ((n : K) / 2) = ((n + 1) / 2 : Nat) := by
  rw [rhaz_of_nonneg (by positivity), ← add_div, show (n : K) + 1 = ((n + 1 : Nat) : K) by push_cast; rfl]
  exact_mod_cast Nat.floor_div_eq_div (K := K) (n + 1) 2 ▸ (Int.natCast_floor_eq_floor (by positivity)).symm

/-- The rounding of a rational is the rounding of the real it is. -/
theorem rhaz_ratCast (q : ℚ) : rhaz (q : ℝ) = rhaz q := by
  have floorCast (r : ℚ) : ⌊(r : ℝ) + 1 / 2⌋ = ⌊r + 1 / 2⌋ := by
    rw [show (r : ℝ) + 1 / 2 = ((r + 1 / 2 : ℚ) : ℝ) by push_cast; rfl, Rat.floor_cast]
  rcases le_or_gt 0 q with h | h
  · rw [rhaz_of_nonneg h, rhaz_of_nonneg (by exact_mod_cast h), floorCast]
  · rw [rhaz_of_neg h, rhaz_of_neg (by exact_mod_cast h), ← floorCast (-q)]
    push_cast
    rfl

/-- Two points that round differently have a half-integer between them. -/
theorem exists_half_between {x y : K} (h : rhaz x ≠ rhaz y) (hxy : x ≤ y) :
    x ≤ (rhaz x : K) + 1 / 2 ∧ (rhaz x : K) + 1 / 2 ≤ y := by
  have hlt : rhaz x + 1 ≤ rhaz y := lt_of_le_of_ne (rhaz_mono hxy) h
  have hc : (rhaz x : K) + 1 ≤ rhaz y := by exact_mod_cast hlt
  have h1 := abs_le.mp (abs_sub_rhaz_le x)
  have h2 := abs_le.mp (abs_sub_rhaz_le y)
  constructor <;> linarith [h1.2, h2.1]

end Sys2Proof.Machine
end

