-- ==== Sys2Proof/Laws/SineSeries.lean ====
section
/-! SUPPORT. The enclosure the EXACT quantizer works with holds the sine: error bounds of the two series (log 5). -/

namespace Sys2Proof.Machine

open Real

theorem arctanInv_eq_sum (q n : Nat) :
    ((arctanInv q n : ℚ) : ℝ) = ∑ k ∈ Finset.range n, (-1) ^ k * ((q : ℝ)⁻¹) ^ (2 * k + 1) / ((2 * k + 1 : Nat) : ℝ) := by
  induction n with
  | zero => simp [arctanInv]
  | succ n ih =>
    rw [Finset.sum_range_succ, ← ih, arctanInv]
    push_cast
    rw [inv_pow]
    congr 1
    rw [div_eq_mul_inv, mul_inv]
    ring

/-- The arctangent series at `1/q` is short of its sum by at most a geometric tail. -/
theorem abs_arctan_sub_arctanInv_le {q : Nat} (hq : 2 ≤ q) (n : Nat) :
    |arctan (q : ℝ)⁻¹ - arctanInv q n| ≤ (q : ℝ)⁻¹ * ((q : ℝ)⁻¹ ^ 2) ^ n / (1 - (q : ℝ)⁻¹ ^ 2) := by
  have hq' : (2 : ℝ) ≤ q := by exact_mod_cast hq
  have hpos : (0 : ℝ) < (q : ℝ)⁻¹ := by positivity
  have hle : (q : ℝ)⁻¹ ≤ 1 / 2 := by rw [one_div]; exact inv_anti₀ (by norm_num) hq'
  have hsum := Real.hasSum_arctan (x := (q : ℝ)⁻¹) (by rw [Real.norm_eq_abs, abs_of_pos hpos]; linarith)
  have hbound (k : Nat) : ‖(-1 : ℝ) ^ k * ((q : ℝ)⁻¹) ^ (2 * k + 1) / ((2 * k + 1 : Nat) : ℝ)‖
      ≤ (q : ℝ)⁻¹ * ((q : ℝ)⁻¹ ^ 2) ^ k := by
    rw [norm_div, norm_mul, norm_pow, norm_neg, norm_one, one_pow, one_mul, Real.norm_eq_abs, Real.norm_eq_abs,
      abs_of_pos (by positivity), abs_of_pos (by positivity), ← pow_mul, ← pow_succ']
    exact div_le_self (by positivity) (by push_cast; linarith [Nat.cast_nonneg (α := ℝ) k])
  have hr : (q : ℝ)⁻¹ ^ 2 < 1 := by nlinarith
  have := norm_sub_le_of_geometric_bound_of_hasSum hr hbound hsum n
  rwa [← arctanInv_eq_sum, Real.norm_eq_abs, abs_sub_comm] at this

/-- Machin's formula cut after `n` terms. -/
theorem abs_pi_sub_piMachin_le (n : Nat) : |π - piMachin n| ≤ 4 / 25 ^ n := by
  have h5 := abs_arctan_sub_arctanInv_le (q := 5) (by norm_num) n
  have h239 := abs_arctan_sub_arctanInv_le (q := 239) (by norm_num) n
  have hpi := Real.four_mul_arctan_inv_5_sub_arctan_inv_239
  have hp : (0 : ℝ) < (1 / 25 : ℝ) ^ n := by positivity
  have hmono : ((1 : ℝ) / 57121) ^ n ≤ (1 / 25 : ℝ) ^ n := by gcongr; norm_num
  have e5 : ((5 : Nat) : ℝ)⁻¹ ^ 2 = 1 / 25 := by norm_num
  have e239 : ((239 : Nat) : ℝ)⁻¹ ^ 2 = 1 / 57121 := by norm_num
  rw [e5] at h5
  rw [e239] at h239
  push_cast at h5 h239
  have e : (4 : ℝ) / 25 ^ n = 4 * (1 / 25 : ℝ) ^ n := by rw [one_div, inv_pow]; ring
  rw [e, piMachin]
  push_cast
  have eqn : π - (16 * (arctanInv 5 n : ℝ) - 4 * (arctanInv 239 n : ℝ))
      = 16 * (arctan (5 : ℝ)⁻¹ - arctanInv 5 n) - 4 * (arctan (239 : ℝ)⁻¹ - arctanInv 239 n) := by linarith
  rw [eqn]
  rw [show (5 : ℝ)⁻¹ * (1 / 25) ^ n / (1 - 1 / 25) = 5 / 24 * (1 / 25) ^ n by ring] at h5
  rw [show (239 : ℝ)⁻¹ * (1 / 57121) ^ n / (1 - 1 / 57121) = 239 / 57120 * (1 / 57121) ^ n by ring] at h239
  rw [abs_le] at h5 h239 ⊢
  constructor <;> linarith [h5.1, h5.2, h239.1, h239.2]

theorem abs_piMachin_sub_piApprox_le (n : Nat) : |(piMachin n : ℝ) - piApprox n| ≤ 1 / 2 ^ (4 * n) := by
  have hp : (0 : ℚ) < 2 ^ (4 * n) := by positivity
  have key : |piMachin n - piApprox n| ≤ 1 / 2 ^ (4 * n) := by
    rw [piApprox, le_div_iff₀ hp, ← abs_of_pos hp, ← abs_mul, sub_mul, abs_of_pos hp, div_mul_cancel₀ _ hp.ne', abs_le]
    constructor <;> linarith [Int.floor_le (piMachin n * 2 ^ (4 * n)), Int.lt_floor_add_one (piMachin n * 2 ^ (4 * n))]
  have cast : ((|piMachin n - piApprox n| : ℚ) : ℝ) ≤ ((1 / 2 ^ (4 * n) : ℚ) : ℝ) := by exact_mod_cast key
  push_cast at cast
  exact cast

/-- How far the π of level `n` is from π. -/
theorem abs_pi_sub_piApprox_le (n : Nat) : |π - piApprox n| ≤ 4 / 25 ^ n + 1 / 2 ^ (4 * n) := by
  have := abs_add_le (π - piMachin n) ((piMachin n : ℝ) - piApprox n)
  rw [sub_add_sub_cancel] at this
  linarith [abs_pi_sub_piMachin_le n, abs_piMachin_sub_piApprox_le n]

theorem sinSeries_eq_im (x : ℚ) (n : Nat) :
    ((sinSeries x n : ℚ) : ℝ) = (∑ m ∈ Finset.range (2 * n), ((x : ℝ) * Complex.I : ℂ) ^ m / (m.factorial : ℂ)).im := by
  induction n with
  | zero => simp [sinSeries]
  | succ n ih =>
    have heven : ((((x : ℝ) : ℂ) * Complex.I) ^ (2 * n) / ((2 * n).factorial : ℂ)).im = 0 := by
      rw [mul_pow, pow_mul Complex.I, Complex.I_sq]
      norm_cast
    have hodd : ((((x : ℝ) : ℂ) * Complex.I) ^ (2 * n + 1) / ((2 * n + 1).factorial : ℂ)).im
        = (-1) ^ n * (x : ℝ) ^ (2 * n + 1) / ((2 * n + 1).factorial : ℝ) := by
      rw [mul_pow, pow_succ Complex.I, pow_mul Complex.I, Complex.I_sq]
      have : (((x : ℝ) : ℂ) ^ (2 * n + 1) * ((-1) ^ n * Complex.I)) / ((2 * n + 1).factorial : ℂ)
          = (((-1) ^ n * (x : ℝ) ^ (2 * n + 1) / ((2 * n + 1).factorial : ℝ) : ℝ) : ℂ) * Complex.I := by
        push_cast
        ring
      rw [this, Complex.mul_I_im, Complex.ofReal_re]
    rw [show 2 * (n + 1) = 2 * n + 1 + 1 by ring, Finset.sum_range_succ, Finset.sum_range_succ, Complex.add_im,
      Complex.add_im, heven, hodd, ← ih, sinSeries]
    push_cast
    ring

/-- The tail of the sine series. -/
theorem abs_sin_sub_sinSeries_le {x : ℚ} {n : Nat} (hx : |(x : ℝ)| ≤ 7) (hn : 7 ≤ n) :
    |sin x - sinSeries x n| ≤ 2 * 7 ^ (2 * n) / ((2 * n).factorial : ℝ) := by
  have hnorm : ‖(((x : ℝ) : ℂ) * Complex.I)‖ = |(x : ℝ)| := by simp
  have hdiv : ‖(((x : ℝ) : ℂ) * Complex.I)‖ / ((2 * n).succ : ℝ) ≤ 1 / 2 := by
    rw [hnorm, div_le_iff₀ (by positivity)]
    have : (7 : ℝ) ≤ n := by exact_mod_cast hn
    push_cast
    linarith
  have hb := Complex.exp_bound' hdiv
  have him : sin x - sinSeries x n = (Complex.exp (((x : ℝ) : ℂ) * Complex.I)
      - ∑ m ∈ Finset.range (2 * n), ((x : ℝ) * Complex.I : ℂ) ^ m / (m.factorial : ℂ)).im := by
    rw [Complex.sub_im, Complex.exp_ofReal_mul_I_im, sinSeries_eq_im]
  rw [him]
  refine (Complex.abs_im_le_norm _).trans (hb.trans ?_)
  rw [hnorm]
  have : |(x : ℝ)| ^ (2 * n) ≤ 7 ^ (2 * n) := by gcongr
  rw [div_mul_eq_mul_div]
  refine div_le_div_of_nonneg_right ?_ (by positivity)
  linarith

/-- The enclosure of level `n` holds the sine (n at least 7). -/
theorem abs_sin_sub_sinApprox_le {n p sr : Nat} (hn : 7 ≤ n) (hp : p < sr) :
    |sin (2 * π * p / sr) - sinApprox n p sr| ≤ (sinError n : ℚ) := by
  have hsr : (0 : ℝ) < sr := by exact_mod_cast (Nat.zero_le p).trans_lt hp
  have hturn : (p : ℝ) / sr ≤ 1 := by rw [div_le_one hsr]; exact_mod_cast hp.le
  have hturn0 : (0 : ℝ) ≤ (p : ℝ) / sr := by positivity
  have hpi := abs_pi_sub_piApprox_le n
  have hsmall : (4 : ℝ) / 25 ^ n + 1 / 2 ^ (4 * n) ≤ 1 / 4 := by
    have h1 : (25 : ℝ) ^ 2 ≤ 25 ^ n := pow_le_pow_right₀ (by norm_num) (by omega)
    have h2 : (2 : ℝ) ^ 8 ≤ 2 ^ (4 * n) := pow_le_pow_right₀ (by norm_num) (by omega)
    have h3 : (4 : ℝ) / 25 ^ n ≤ 4 / 25 ^ 2 := by gcongr
    have h4 : (1 : ℝ) / 2 ^ (4 * n) ≤ 1 / 2 ^ 8 := by gcongr
    have h5 : (4 : ℝ) / 25 ^ 2 + 1 / 2 ^ 8 ≤ 1 / 4 := by norm_num
    linarith
  set x : ℚ := 2 * piApprox n * p / sr with hx
  have hxr : (x : ℝ) = 2 * piApprox n * (p / sr) := by rw [hx]; push_cast; ring
  have habs : |(x : ℝ)| ≤ 7 := by
    have hb := abs_le.mp hpi
    have hpos : (0 : ℝ) ≤ piApprox n := by linarith [hb.2, Real.pi_gt_three]
    have hle : (piApprox n : ℝ) ≤ 3.5 := by linarith [hb.1, Real.pi_lt_d2]
    rw [hxr, abs_of_nonneg (by positivity)]
    nlinarith
  have hang : |2 * π * p / sr - x| ≤ 2 * (4 / 25 ^ n + 1 / 2 ^ (4 * n)) := by
    have : 2 * π * p / sr - (x : ℝ) = 2 * (π - piApprox n) * (p / sr) := by rw [hxr]; ring
    rw [this, abs_mul, abs_mul, abs_of_nonneg hturn0, abs_two]
    have := abs_nonneg (π - piApprox n)
    nlinarith
  have hlip := Real.abs_sin_sub_sin_le (2 * π * p / sr) x
  have hser := abs_sin_sub_sinSeries_le (n := n) habs hn
  have htri := abs_add_le (sin (2 * π * p / sr) - sin x) (sin x - sinSeries x n)
  rw [sub_add_sub_cancel] at htri
  have hse : ((sinError n : ℚ) : ℝ) = 2 * 7 ^ (2 * n) / ((2 * n).factorial : ℝ) + 2 * (4 / 25 ^ n + 1 / 2 ^ (4 * n)) := by
    rw [sinError]; push_cast; rfl
  rw [hse, sinApprox, ← hx]
  linarith

/-- Where the two ends of a level round alike, the real value rounds as they do. -/
theorem roundedEnds_sound {A p sr n : Nat} (hn : 7 ≤ n) (hp : p < sr)
    (h : (roundedEnds A p sr n).1 = (roundedEnds A p sr n).2) :
    (roundedEnds A p sr n).1 = rhaz ((A : ℝ) * sin (2 * π * p / sr)) := by
  have hb := abs_le.mp (abs_sin_sub_sinApprox_le hn hp)
  have hA : (0 : ℝ) ≤ A := Nat.cast_nonneg A
  have lo : (roundedEnds A p sr n).1 ≤ rhaz ((A : ℝ) * sin (2 * π * p / sr)) := by
    simp only [roundedEnds]
    rw [← rhaz_ratCast]
    apply rhaz_mono
    push_cast
    exact mul_le_mul_of_nonneg_left (by linarith [hb.1]) hA
  have hi : rhaz ((A : ℝ) * sin (2 * π * p / sr)) ≤ (roundedEnds A p sr n).2 := by
    simp only [roundedEnds]
    rw [← rhaz_ratCast]
    apply rhaz_mono
    push_cast
    exact mul_le_mul_of_nonneg_left (by linarith [hb.2]) hA
  omega

/-- Where they do not, an odd number of halves is within four errors of the real value. -/
theorem roundedEnds_undecided {A p sr n : Nat} (hn : 7 ≤ n) (hp : p < sr)
    (h : (roundedEnds A p sr n).1 ≠ (roundedEnds A p sr n).2) :
    ∃ k : Int, |2 * (A : ℝ) * sin (2 * π * p / sr) - (2 * k + 1 : Int)| ≤ 4 * A * (sinError n : ℚ) := by
  have hb := abs_le.mp (abs_sin_sub_sinApprox_le hn hp)
  have hA : (0 : ℝ) ≤ A := Nat.cast_nonneg A
  have herr : (0 : ℚ) ≤ sinError n := by rw [sinError]; positivity
  have hends : (A : ℚ) * (sinApprox n p sr - sinError n) ≤ A * (sinApprox n p sr + sinError n) := by
    apply mul_le_mul_of_nonneg_left _ (Nat.cast_nonneg A)
    linarith
  obtain ⟨h1, h2⟩ := exists_half_between h hends
  set k : Int := rhaz ((A : ℚ) * (sinApprox n p sr - sinError n))
  refine ⟨k, ?_⟩
  have h1' : ((A * (sinApprox n p sr - sinError n) : ℚ) : ℝ) ≤ ((k + 1 / 2 : ℚ) : ℝ) := by exact_mod_cast h1
  have h2' : ((k + 1 / 2 : ℚ) : ℝ) ≤ ((A * (sinApprox n p sr + sinError n) : ℚ) : ℝ) := by exact_mod_cast h2
  push_cast at h1' h2'
  have l := mul_le_mul_of_nonneg_left hb.1 hA
  have u := mul_le_mul_of_nonneg_left hb.2 hA
  rw [abs_le]
  push_cast
  constructor <;> linarith

end Sys2Proof.Machine
end

