-- ==== Sys2Proof/Laws/SineGap.lean ====
section
/-! SUPPORT. Why the doubling of `refineRounding` ends: an integer multiple of a sine of a rational angle that is no integer
keeps a distance from every integer, and the enclosure becomes closer than that (log 5). -/

namespace Sys2Proof.Machine

open Real

/-- A nonzero algebraic integer of a field of degree at most `n`, whose conjugates are all at most `C`, is no closer to 0 than
`1 / C ^ n`. -/
theorem one_le_norm_mul_pow {K : Type*} [Field K] [Algebra ℚ K] [FiniteDimensional ℚ K] (ι : K →ₐ[ℚ] ℂ) {n : Nat}
    (hdeg : Module.finrank ℚ K ≤ n) {C : ℝ} (hC : 1 ≤ C) {x : K} (hint : IsIntegral ℤ (ι x)) (hne : x ≠ 0)
    (hconj : ∀ σ : K →ₐ[ℚ] ℂ, ‖σ x‖ ≤ C) : 1 ≤ ‖ι x‖ * C ^ n := by
  classical
  have hxint : IsIntegral ℤ x := (isIntegral_algHom_iff (ι.restrictScalars ℤ) ι.injective).mp hint
  obtain ⟨m, hm⟩ := IsIntegrallyClosed.isIntegral_iff.mp (Algebra.isIntegral_norm ℚ hxint)
  have hm0 : m ≠ 0 := by
    rintro rfl
    rw [map_zero] at hm
    exact hne (Algebra.norm_eq_zero_iff.mp hm.symm)
  have hone : 1 ≤ ‖algebraMap ℚ ℂ (Algebra.norm ℚ x)‖ := by
    rw [← hm]
    simp only [eq_intCast, Complex.norm_intCast, map_intCast]
    exact_mod_cast Int.one_le_abs hm0
  rw [Algebra.norm_eq_prod_embeddings ℚ ℂ x, norm_prod, ← Finset.mul_prod_erase _ _ (Finset.mem_univ ι)] at hone
  refine hone.trans (mul_le_mul_of_nonneg_left ?_ (norm_nonneg _))
  refine (Finset.prod_le_prod (fun σ _ => norm_nonneg _) fun σ _ => hconj σ).trans ?_
  rw [Finset.prod_const]
  refine pow_le_pow_right₀ hC (Finset.card_erase_le.trans ?_)
  rwa [Finset.card_univ, AlgHom.card]

/-- The field of an `n`-th root of unity has degree at most `n`. -/
theorem finrank_adjoin_root_le {ζ : ℂ} {n : Nat} (hn : 0 < n) (hζ : ζ ^ n = 1) :
    Module.finrank ℚ (IntermediateField.adjoin ℚ {ζ}) ≤ n := by
  rw [IntermediateField.adjoin.finrank (IsIntegral.of_pow hn (hζ ▸ isIntegral_one))]
  have hdvd : minpoly ℚ ζ ∣ Polynomial.X ^ n - 1 := minpoly.dvd ℚ ζ (by simp [hζ])
  exact (Polynomial.natDegree_le_of_dvd hdvd (Polynomial.X_pow_sub_C_ne_zero hn 1)).trans
    (Polynomial.natDegree_X_pow_sub_C (n := n) (r := (1 : ℚ))).le

/-- The root of unity the angle `2π × p / sr` is a power of, and the sine written with it. -/
theorem two_mul_sin_eq {p sr : Nat} (hsr : 0 < sr) (A : ℝ) :
    ∃ ζ : ℂ, ζ ^ (4 * sr) = 1 ∧
      ((2 * A * sin (2 * π * p / sr) : ℝ) : ℂ) = -(ζ ^ sr * (A * (ζ ^ (4 * p) - (ζ ^ (4 * p)) ^ (4 * sr - 1)))) := by
  set n := 4 * sr
  set ζ := Complex.exp (2 * π * Complex.I / n)
  have hr : (sr : ℂ) ≠ 0 := by exact_mod_cast hsr.ne'
  have hn : (n : ℂ) ≠ 0 := by exact_mod_cast (show n ≠ 0 by omega)
  have hroot : ζ ^ n = 1 := (Complex.isPrimitiveRoot_exp n (by omega)).pow_eq_one
  have hI : ζ ^ sr = Complex.I := by
    have harg : (sr : ℂ) * (2 * π * Complex.I / n) = π / 2 * Complex.I := by
      simp only [n]
      push_cast
      field_simp
      norm_num
    rw [← Complex.exp_nat_mul, harg, Complex.exp_pi_div_two_mul_I]
  have hang : ζ ^ (4 * p) = Complex.exp (((2 * π * p / sr : ℝ) : ℂ) * Complex.I) := by
    rw [← Complex.exp_nat_mul]
    congr 1
    simp only [n]
    push_cast
    field_simp
  have hinv : (ζ ^ (4 * p)) ^ (n - 1) = Complex.exp (-((2 * π * p / sr : ℝ) : ℂ) * Complex.I) := by
    have hne : ζ ^ (4 * p) ≠ 0 := pow_ne_zero _ (Complex.exp_ne_zero _)
    have h1 : (ζ ^ (4 * p)) ^ (n - 1) * ζ ^ (4 * p) = 1 := by
      rw [← pow_succ, Nat.sub_add_cancel (by omega), ← pow_mul, mul_comm, pow_mul, hroot, one_pow]
    rw [neg_mul, Complex.exp_neg, ← hang]
    exact eq_inv_of_mul_eq_one_left h1
  refine ⟨ζ, hroot, ?_⟩
  rw [hI, hinv, hang]
  push_cast
  rw [Complex.sin]
  ring

/-- `2 × A × sin (2π × p / sr)` is an integer, or stays away from every integer. -/
theorem two_mul_sin_gap {A p sr : Nat} (hsr : 0 < sr) (m : Int) {C : ℝ} (hC : 1 ≤ C) (hAm : 2 * A + |(m : ℝ)| ≤ C)
    (hne : 2 * (A : ℝ) * sin (2 * π * p / sr) ≠ m) :
    1 ≤ |2 * (A : ℝ) * sin (2 * π * p / sr) - m| * C ^ (4 * sr) := by
  obtain ⟨ζ, hroot, heq⟩ := two_mul_sin_eq (p := p) hsr (A : ℝ)
  set x : ℝ := 2 * (A : ℝ) * sin (2 * π * p / sr)
  have hdeg := finrank_adjoin_root_le (n := 4 * sr) (by omega) hroot
  have hfin : FiniteDimensional ℚ (IntermediateField.adjoin ℚ {ζ}) :=
    IntermediateField.adjoin.finiteDimensional (IsIntegral.of_pow (n := 4 * sr) (by omega) (hroot ▸ isIntegral_one))
  have hζmem := IntermediateField.mem_adjoin_simple_self ℚ ζ
  generalize IntermediateField.adjoin ℚ {ζ} = K at hdeg hfin hζmem
  set z : K := ⟨ζ, hζmem⟩
  set w : K := -(z ^ sr * ((A : K) * (z ^ (4 * p) - (z ^ (4 * p)) ^ (4 * sr - 1)))) - (m : K)
  have hw : ((x - m : ℝ) : ℂ) = (w : ℂ) := by
    rw [Complex.ofReal_sub, heq]
    simp [w, z]
  have hζint : IsIntegral ℤ ζ := IsIntegral.of_pow (by omega) (hroot ▸ isIntegral_one)
  have hint : IsIntegral ℤ (w : ℂ) := by
    have hcoe : (w : ℂ) = -(ζ ^ sr * ((A : ℂ) * (ζ ^ (4 * p) - (ζ ^ (4 * p)) ^ (4 * sr - 1)))) - (m : ℂ) := by
      simp [w, z]
    rw [hcoe]
    have hA : IsIntegral ℤ (A : ℂ) := by exact_mod_cast (isIntegral_algebraMap (R := ℤ) (A := ℂ) (x := (A : ℤ)))
    have hm : IsIntegral ℤ (m : ℂ) := isIntegral_algebraMap (R := ℤ) (A := ℂ) (x := m)
    exact (((hζint.pow _).mul (hA.mul ((hζint.pow _).sub ((hζint.pow _).pow _)))).neg).sub hm
  have hne0 : w ≠ 0 := by
    rintro h0
    rw [h0, ZeroMemClass.coe_zero] at hw
    exact hne (sub_eq_zero.mp (by exact_mod_cast hw))
  have hconj (σ : K →ₐ[ℚ] ℂ) : ‖σ w‖ ≤ C := by
    have hz1 : ‖σ z‖ = 1 := by
      have hp : (σ z) ^ (4 * sr) = 1 := by
        rw [← map_pow, show z ^ (4 * sr) = 1 from Subtype.ext (by simpa [z] using hroot), map_one]
      exact Complex.norm_eq_one_of_pow_eq_one hp (by omega)
    have hσ : σ w = -((σ z) ^ sr * ((A : ℂ) * ((σ z) ^ (4 * p) - ((σ z) ^ (4 * p)) ^ (4 * sr - 1)))) - (m : ℂ) := by
      simp [w]
    rw [hσ]
    refine (norm_sub_le _ _).trans (le_trans ?_ hAm)
    rw [norm_neg, norm_mul, norm_mul, norm_pow, hz1, one_pow, one_mul, Complex.norm_natCast, Complex.norm_intCast]
    have h2 : ‖(σ z) ^ (4 * p) - ((σ z) ^ (4 * p)) ^ (4 * sr - 1)‖ ≤ 2 := by
      refine (norm_sub_le _ _).trans ?_
      simp only [norm_pow, hz1, one_pow]
      norm_num
    have := mul_le_mul_of_nonneg_left h2 (Nat.cast_nonneg (α := ℝ) A)
    linarith
  have := one_le_norm_mul_pow K.val hdeg hC hint hne0 hconj
  rwa [show K.val w = (w : ℂ) from rfl, ← hw, Complex.norm_real, Real.norm_eq_abs] at this

/-- The error of a level in powers of two. -/
theorem sinError_le (n : Nat) (hn : 24 ≤ n) : ((sinError n : ℚ) : ℝ) ≤ 2 ^ 101 / 2 ^ (4 * n) := by
  have tail (k : Nat) : (7 : ℝ) ^ (48 + k) * 4 ^ k ≤ ((48 + k).factorial : ℝ) := by
    induction k with
    | zero => norm_num [Nat.factorial]
    | succ k ih =>
      rw [← Nat.add_assoc, Nat.factorial_succ, pow_succ, pow_succ]
      push_cast
      have hk : (28 : ℝ) ≤ 48 + (k : ℝ) + 1 := by linarith [Nat.cast_nonneg (α := ℝ) k]
      calc (7 : ℝ) ^ (48 + k) * 7 * (4 ^ k * 4) = 28 * (7 ^ (48 + k) * 4 ^ k) := by ring
        _ ≤ (48 + (k : ℝ) + 1) * ((48 + k).factorial : ℝ) := by
          apply mul_le_mul hk ih (by positivity) (by linarith)
  obtain ⟨k, rfl⟩ : ∃ k, n = 24 + k := ⟨n - 24, by omega⟩
  have htail := tail (2 * k)
  rw [show 48 + 2 * k = 2 * (24 + k) by ring] at htail
  have hfac : (0 : ℝ) < ((2 * (24 + k)).factorial : ℝ) := by exact_mod_cast Nat.factorial_pos _
  have h1 : (7 : ℝ) ^ (2 * (24 + k)) / ((2 * (24 + k)).factorial : ℝ) ≤ 2 ^ 96 / 2 ^ (4 * (24 + k)) := by
    rw [div_le_div_iff₀ hfac (by positivity)]
    calc (7 : ℝ) ^ (2 * (24 + k)) * 2 ^ (4 * (24 + k)) = 2 ^ 96 * (7 ^ (2 * (24 + k)) * 4 ^ (2 * k)) := by
          rw [show (4 : ℝ) = 2 ^ 2 by norm_num, ← pow_mul, show 4 * (24 + k) = 96 + 2 * (2 * k) by ring, pow_add]
          ring
      _ ≤ 2 ^ 96 * ((2 * (24 + k)).factorial : ℝ) := by gcongr
  have h2 : (4 : ℝ) / 25 ^ (24 + k) ≤ 4 / 2 ^ (4 * (24 + k)) := by
    rw [pow_mul]
    gcongr
    norm_num
  rw [sinError]
  push_cast
  have hp : (0 : ℝ) < 2 ^ (4 * (24 + k)) := by positivity
  rw [mul_div_assoc]
  have e : (2 : ℝ) ^ 101 / 2 ^ (4 * (24 + k)) = 2 * (2 ^ 96 / 2 ^ (4 * (24 + k))) + 2 * (4 / 2 ^ (4 * (24 + k)) + 1 / 2 ^ (4 * (24 + k)))
      + (2 ^ 101 - 2 * 2 ^ 96 - 10) / 2 ^ (4 * (24 + k)) := by field_simp; ring
  have hrest : (0 : ℝ) ≤ (2 ^ 101 - 2 * 2 ^ 96 - 10) / 2 ^ (4 * (24 + k)) := by
    apply div_nonneg _ hp.le
    norm_num
  linarith

/-- The last level tested rounds alike wherever the real value is no tie. -/
theorem roundedEnds_decided {A p sr n : Nat} (hA : A < 2 ^ 31) (hp : p < sr) (hsr : sr < 2 ^ 32)
    (hn : 2 ^ 39 ≤ n)
    (hno : ∀ k : Int, 2 * (A : ℝ) * sin (2 * π * p / sr) ≠ (2 * k + 1 : Int)) :
    (roundedEnds A p sr n).1 = (roundedEnds A p sr n).2 := by
  by_contra h
  obtain ⟨k, hk⟩ := roundedEnds_undecided (by omega) hp h
  have herr := sinError_le n (by omega)
  have hA' : (A : ℝ) ≤ 2 ^ 31 := by exact_mod_cast hA.le
  have hA0 : (0 : ℝ) ≤ A := Nat.cast_nonneg A
  have hs0 : (0 : ℝ) ≤ (sinError n : ℚ) := by
    have : (0 : ℚ) ≤ sinError n := by rw [sinError]; positivity
    exact_mod_cast this
  -- the distance from the odd number, in powers of two
  have hdist : |2 * (A : ℝ) * sin (2 * π * p / sr) - (2 * k + 1 : Int)| ≤ 2 ^ 134 / 2 ^ (4 * n) := by
    refine hk.trans ?_
    calc 4 * (A : ℝ) * (sinError n : ℚ) ≤ 4 * 2 ^ 31 * (2 ^ 101 / 2 ^ (4 * n)) := by gcongr
      _ = 2 ^ 134 / 2 ^ (4 * n) := by rw [← mul_div_assoc]; norm_num
  have hone : (2 : ℝ) ^ 134 / 2 ^ (4 * n) ≤ 1 := by
    rw [div_le_one (by positivity)]
    exact pow_le_pow_right₀ (by norm_num) (by omega)
  have habs : |((2 * k + 1 : Int) : ℝ)| ≤ 2 * A + 1 := by
    have hsin : |2 * (A : ℝ) * sin (2 * π * p / sr)| ≤ 2 * A := by
      rw [abs_mul, abs_of_nonneg (by positivity)]
      have := abs_sin_le_one (2 * π * p / sr)
      nlinarith
    have := abs_sub_abs_le_abs_sub ((2 * k + 1 : Int) : ℝ) (2 * (A : ℝ) * sin (2 * π * p / sr))
    rw [abs_sub_comm] at this
    linarith
  have hC : 2 * (A : ℝ) + |((2 * k + 1 : Int) : ℝ)| ≤ 2 ^ 34 := by
    have : (2 : ℝ) ^ 31 * 4 + 1 ≤ 2 ^ 34 := by norm_num
    linarith
  have hgap := two_mul_sin_gap (by omega) (2 * k + 1) (by norm_num) hC (hno k)
  have hpow : ((2 : ℝ) ^ 34) ^ (4 * sr) ≤ 2 ^ (136 * 2 ^ 32) := by
    rw [← pow_mul]
    exact pow_le_pow_right₀ (by norm_num) (by omega)
  have : (1 : ℝ) ≤ 2 ^ 134 / 2 ^ (4 * n) * 2 ^ (136 * 2 ^ 32) :=
    hgap.trans (mul_le_mul hdist hpow (by positivity) (by positivity))
  rw [div_mul_eq_mul_div, le_div_iff₀ (by positivity), one_mul, ← pow_add] at this
  exact absurd ((pow_le_pow_iff_right₀ (by norm_num)).mp this) (by omega)

/-- Doubling the level ends with the rounding of the real value, if one of the levels tested rounds alike. -/
theorem refineRounding_sound {A p sr : Nat} (hp : p < sr) (fuel n : Nat) (hn : 7 ≤ n) (j : Nat) (hj : j < fuel)
    (h : (roundedEnds A p sr (2 ^ j * n)).1 = (roundedEnds A p sr (2 ^ j * n)).2) :
    refineRounding A p sr fuel n = rhaz ((A : ℝ) * sin (2 * π * p / sr)) := by
  induction fuel generalizing n j with
  | zero => omega
  | succ fuel ih =>
    rw [refineRounding]
    split
    · exact roundedEnds_sound hn hp ‹_›
    · cases j with
      | zero => simp_all
      | succ j =>
        refine ih (2 * n) (by omega) j (by omega) ?_
        rwa [show 2 ^ j * (2 * n) = 2 ^ (j + 1) * n by ring]

end Sys2Proof.Machine
end

