-- ==== Sys2Proof/Laws/SinePoints.lean ====
section
/-! SUPPORT. The rational points of the sine (40_signal_generator.md R106) and the absence of ties elsewhere. -/

namespace Sys2Proof.Machine

open Real

/-- The two angles of one turn that have the sine of `a` twelfths of a turn. -/
theorem turn_cases {p sr : Nat} (hp : p < sr) {t : ℝ} {a b : Int} (ha : 0 ≤ a) (ha' : a < 12) (hb : 0 ≤ b) (hb' : b < 12)
    (hab : a + b = 6 ∨ a + b = 18)
    (hs : sin (a * π / 6) = t) (h : sin (2 * π * p / sr) = t) :
    12 * (p : Int) = a * sr ∨ 12 * (p : Int) = b * sr := by
  have hsr : (sr : ℝ) ≠ 0 := by exact_mod_cast (show sr ≠ 0 by omega)
  have hpi := Real.pi_ne_zero
  rw [← hs, Real.sin_eq_sin_iff] at h
  obtain ⟨k, h | h⟩ := h
  · have : (a * sr : ℝ) = 12 * k * sr + 12 * p := by
      field_simp at h; nlinarith
    have hz : (a * sr : Int) = 12 * k * sr + 12 * p := by exact_mod_cast this
    have : k = 0 := by
      rcases lt_trichotomy k 0 with hk | hk | hk
      · nlinarith
      · exact hk
      · nlinarith
    subst this; left; linarith
  · have : (a * sr : ℝ) = 6 * (2 * k + 1) * sr - 12 * p := by
      field_simp at h; nlinarith
    have hz : (a * sr : Int) = 6 * (2 * k + 1) * sr - 12 * p := by exact_mod_cast this
    have e : (12 * k + 6 - a) * (sr : Int) = 12 * p := by linarith
    have h0 : 0 ≤ 12 * k + 6 - a := by nlinarith
    have h1 : 12 * k + 6 - a < 12 := by nlinarith
    right
    rw [← e]
    congr 1
    omega

/-- Away from the rational points of R106 the real value is no tie: Niven's theorem (93_implementation_defined.md GK2). -/
theorem no_tie {A p sr : Nat} (hp : p < sr)
    (hnone : (if 12 * p % sr = 0 then rationalPoint A (12 * p / sr) else none) = none) (k : Int) :
    2 * (A : ℝ) * sin (2 * π * p / sr) ≠ (2 * k + 1 : Int) := by
  intro h
  have hsr : 0 < sr := by omega
  have hA : (A : ℝ) ≠ 0 := by
    rintro h0
    rw [h0] at h
    rw [mul_zero, zero_mul] at h
    have : (0 : Int) = 2 * k + 1 := by exact_mod_cast h
    omega
  have hno : ∀ t : Nat, (t = 1 ∨ t = 5 ∨ t = 7 ∨ t = 11) → 12 * (p : Int) ≠ (t : Int) * sr := by
    intro t ht he
    have he' : 12 * p = t * sr := by exact_mod_cast he
    rw [he', Nat.mul_mod_left, if_pos rfl, Nat.mul_div_cancel _ hsr] at hnone
    rcases ht with rfl | rfl | rfl | rfl <;> simp [rationalPoint] at hnone
  have hniv := niven_sin (θ := 2 * π * p / sr) ⟨2 * p / sr, by push_cast; ring⟩
    ⟨(2 * k + 1 : Int) / (2 * A), by push_cast; push_cast at h; field_simp; linarith⟩
  simp only [Set.mem_insert_iff, Set.mem_singleton_iff] at hniv
  rcases hniv with e | e | e | e | e
  · rw [e] at h
    have : 2 * (A : Int) * (-1) = 2 * k + 1 := by exact_mod_cast h
    omega
  · have s7 : sin ((7 : Int) * π / 6) = -1 / 2 := by
      rw [show ((7 : Int) : ℝ) * π / 6 = π / 6 + π by push_cast; ring, sin_add_pi, sin_pi_div_six]; norm_num
    rcases turn_cases hp (a := 7) (b := 11) (by omega) (by omega) (by omega) (by omega) (by omega) s7 e with h | h
    · exact hno 7 (by omega) h
    · exact hno 11 (by omega) h
  · rw [e] at h
    rw [mul_zero] at h
    have : (0 : Int) = 2 * k + 1 := by exact_mod_cast h
    omega
  · have s1 : sin ((1 : Int) * π / 6) = 1 / 2 := by
      rw [show ((1 : Int) : ℝ) * π / 6 = π / 6 by push_cast; ring, sin_pi_div_six]
    rcases turn_cases hp (a := 1) (b := 5) (by omega) (by omega) (by omega) (by omega) (by omega) s1 e with h | h
    · exact hno 1 (by omega) h
    · exact hno 5 (by omega) h
  · rw [e] at h
    have : 2 * (A : Int) * 1 = 2 * k + 1 := by exact_mod_cast h
    omega

/-- The table of R106 rounds the real value. -/
theorem rationalPoint_sound {A t : Nat} {v : Int} (h : rationalPoint A t = some v) :
    v = rhaz ((A : ℝ) * sin (t * π / 6)) := by
  have hA : (0 : ℝ) ≤ A := Nat.cast_nonneg A
  have c1 : rhaz ((A : ℝ) * (1 / 2)) = halfUp A := by
    rw [mul_one_div, rhaz_half, halfUp]
  unfold rationalPoint at h
  split at h <;> first | (simp only [Option.some.injEq] at h; subst h) | simp at h
  · simp
  · rw [show ((6 : Nat) : ℝ) * π / 6 = π by push_cast; ring]; simp
  · rw [show ((1 : Nat) : ℝ) * π / 6 = π / 6 by push_cast; ring, sin_pi_div_six, c1]
  · rw [show ((5 : Nat) : ℝ) * π / 6 = π - π / 6 by push_cast; ring, sin_pi_sub, sin_pi_div_six, c1]
  · rw [show ((3 : Nat) : ℝ) * π / 6 = π / 2 by push_cast; ring, sin_pi_div_two, mul_one, rhaz_natCast]
  · rw [show ((7 : Nat) : ℝ) * π / 6 = π / 6 + π by push_cast; ring, sin_add_pi, sin_pi_div_six, mul_neg, rhaz_neg, c1]
  · rw [show ((11 : Nat) : ℝ) * π / 6 = π - π / 6 + π by push_cast; ring, sin_add_pi, sin_pi_sub, sin_pi_div_six, mul_neg, rhaz_neg, c1]
  · rw [show ((9 : Nat) : ℝ) * π / 6 = π / 2 + π by push_cast; ring, sin_add_pi, sin_pi_div_two, mul_neg, rhaz_neg, mul_one, rhaz_natCast]

end Sys2Proof.Machine
end

