-- ==== Sys2Proof/Laws/Stream.lean ====
section
/-! SUPPORT. The stream of a run: the sample behind an offered byte, what counting a byte does, and what the lanes keep. -/

namespace Sys2Proof.Machine

open Sys2Proof

variable {c : Params} {e : Edge} {s : State} {p : Progress} {B : Nat}

/-- A lane and the generator give the same sample (R197), so a lane changes no byte. -/
theorem laneSample_eq (h : ∀ l ∈ s.lanes, l.sample = s.snap.sampleAt c.sine l.index) :
    s.laneSample c.sine = s.snap.sampleAt c.sine := by
  funext i
  unfold State.laneSample
  split
  next l hl =>
    have hi : l.index = i := by simpa using List.find?_some hl
    rw [← hi]
    exact h l (List.mem_of_find?_eq_some hl)
  next => rfl

/-- The byte on offer is the stream byte of the position (R190). -/
theorem offeredByte_eq (h : ∀ l ∈ s.lanes, l.sample = s.snap.sampleAt c.sine l.index) :
    s.offeredByte c.sine = s.snap.streamByte c.sine s.pos := by
  rw [State.offeredByte, laneSample_eq h, Snapshot.streamByte]

/-- Counting a header byte (R191, R43). -/
theorem count_header {pos : Nat} (h : pos < 44) : p.count pos B = { p with hdrBytes := p.hdrBytes + 1 } := by
  simp [Progress.count, h]

/-- Counting a data byte (R191, R41, R42). -/
theorem count_data {pos : Nat} (h : 44 ≤ pos) : p.count pos B = { p with
    dataBytes := p.dataBytes + 1
    sampleCount := if (pos - 44) % B = B - 1 then p.sampleCount + 1 else p.sampleCount } := by
  simp [Progress.count, Nat.not_lt.mpr h]

/-- Counting the byte at the position moves the position by one; header bytes stay first. -/
theorem count_pos (h44 : p.hdrBytes.toNat ≤ 44) (h0 : p.hdrBytes.toNat < 44 → p.dataBytes = 0)
    (hd : p.dataBytes.toNat + 1 < 2 ^ 32) {pos : Nat} (hpos : pos = p.hdrBytes.toNat + p.dataBytes.toNat) :
    (p.count pos B).hdrBytes.toNat + (p.count pos B).dataBytes.toNat = pos + 1
      ∧ (p.count pos B).hdrBytes.toNat ≤ 44
      ∧ ((p.count pos B).hdrBytes.toNat < 44 → (p.count pos B).dataBytes = 0)
      ∧ (44 ≤ pos → p.hdrBytes.toNat = 44) := by
  by_cases hlt : p.hdrBytes.toNat < 44
  · have hz := h0 hlt
    have : pos < 44 := by simp [hpos, hz, hlt]
    rw [count_header this]
    refine ⟨?_, ?_, fun _ => hz, by omega⟩ <;>
      simp only [hz, BitVec.toNat_add, BitVec.toNat_ofNat, BitVec.ofNat_eq_ofNat] at hpos ⊢ <;> omega
  · have : 44 ≤ pos := by omega
    rw [count_data this]
    refine ⟨?_, h44, fun h => absurd h hlt, by omega⟩
    simp only [BitVec.toNat_add, BitVec.toNat_ofNat, BitVec.ofNat_eq_ofNat]
    omega

/-- SAMPLE_COUNT stays the number of whole samples (R41, R191). -/
theorem count_samples (h44 : p.hdrBytes.toNat ≤ 44) (h0 : p.hdrBytes.toNat < 44 → p.dataBytes = 0)
    (hd : p.dataBytes.toNat + 1 < 2 ^ 32) (hB : 0 < B) (hs : p.sampleCount.toNat = p.dataBytes.toNat / B)
    {pos : Nat} (hpos : pos = p.hdrBytes.toNat + p.dataBytes.toNat) :
    (p.count pos B).sampleCount.toNat = (p.count pos B).dataBytes.toNat / B := by
  by_cases hlt : pos < 44
  · rw [count_header hlt]; exact hs
  · rw [count_data (by omega)]
    have hh : p.hdrBytes.toNat = 44 := by
      by_contra hne
      have := h0 (by omega)
      simp [this] at hpos
      omega
    have hpd : pos - 44 = p.dataBytes.toNat := by omega
    have hdiv : (p.dataBytes.toNat + 1) / B
        = if p.dataBytes.toNat % B = B - 1 then p.dataBytes.toNat / B + 1 else p.dataBytes.toNat / B := by
      have hm := Nat.div_add_mod p.dataBytes.toNat B
      have hlt := Nat.mod_lt p.dataBytes.toNat hB
      have hdvd : B ∣ p.dataBytes.toNat + 1 ↔ p.dataBytes.toNat % B = B - 1 := by
        rw [← hm, Nat.mul_add_mod, Nat.mod_mod, Nat.add_assoc, Nat.dvd_add_right (Nat.dvd_mul_right ..)]
        exact ⟨fun h => by have := Nat.le_of_dvd (by omega) h; omega, fun h => by rw [h, Nat.sub_add_cancel hB]⟩
      simp only [Nat.succ_div, hdvd]
      split <;> rfl
    have hle : p.dataBytes.toNat / B ≤ p.dataBytes.toNat := Nat.div_le_self _ _
    simp only [hpd, BitVec.toNat_add, BitVec.toNat_ofNat, BitVec.ofNat_eq_ofNat]
    rw [Nat.mod_eq_of_lt (show p.dataBytes.toNat + 1 % 2 ^ 32 < 2 ^ 32 by omega), show 1 % 2 ^ 32 = 1 from rfl, hdiv]
    split
    · simp only [BitVec.toNat_add, hs, BitVec.toNat_ofNat]
      omega
    · exact hs

/-- What `fillLane` leaves: no lane more than there are, and the new lane holds the generator's sample of an index to come. -/
theorem fillLane_lanes {i : Nat} (hn : s.lanes.length ≤ c.lanes)
    (hl : ∀ l ∈ s.lanes, l.sample = s.snap.sampleAt c.sine l.index ∧ s.snap.sampleIndexAt s.pos ≤ l.index
      ∧ l.index < s.snap.N) :
    (fillLane c i s).lanes.length ≤ c.lanes ∧ ∀ l ∈ (fillLane c i s).lanes,
      l.sample = s.snap.sampleAt c.sine l.index ∧ s.snap.sampleIndexAt s.pos ≤ l.index ∧ l.index < s.snap.N := by
  unfold fillLane
  split
  next h =>
    refine ⟨h.1, fun l hm => ?_⟩
    rcases List.mem_cons.mp hm with rfl | hm
    · exact ⟨rfl, h.2.1, h.2.2.1⟩
    · exact hl l hm
  next => exact ⟨hn, hl⟩

/-- The lane work of an edge changes the lanes alone. -/
theorem laneWork_eq (c : Params) (e : Edge) (s : State) : ∃ lanes, laneWork c e s = { s with lanes := lanes } := by
  unfold laneWork fillLane
  split
  · split
    · exact ⟨_, rfl⟩
    · exact ⟨s.lanes, rfl⟩
  · exact ⟨s.lanes, rfl⟩

theorem laneWork_lanes (hn : s.lanes.length ≤ c.lanes)
    (hl : ∀ l ∈ s.lanes, l.sample = s.snap.sampleAt c.sine l.index ∧ s.snap.sampleIndexAt s.pos ≤ l.index
      ∧ l.index < s.snap.N) :
    (laneWork c e s).lanes.length ≤ c.lanes ∧ ∀ l ∈ (laneWork c e s).lanes,
      l.sample = s.snap.sampleAt c.sine l.index ∧ s.snap.sampleIndexAt s.pos ≤ l.index ∧ l.index < s.snap.N := by
  unfold laneWork
  split
  · exact fillLane_lanes hn hl
  · exact ⟨hn, hl⟩

end Sys2Proof.Machine
end

