-- ==== Sys2Proof/Tests/Slice0.lean ====
section
/-! SUPPORT. Tests. Expected values are the spec's own vectors (95_test_vectors.md V<n>, P<n>) or read off the rule cited.
The second half shows, for every statement with hypotheses, concrete states and operands that meet them together. -/

namespace Sys2Proof.Tests

open Sys2Proof Sys2Proof.Machine

/-! ### Well-formedness: each check refuses an ill-formed term -/

theorem test_wf_commands : [Instr.nop, .start, .sample, .header, .pack].all Instr.wellFormed = true := by decide
theorem test_wf_word_index : RegRef.wellFormed (.index 31) = true ∧ RegRef.wellFormed (.index 32) = false := by decide
theorem test_wf_wr_reg : HostOp.wellFormed (.wr (.index 32) 0) = false := by decide
theorem test_wf_wr_value :
    HostOp.wellFormed (.wr (.name .bits) 0xFFFFFFFF) = true ∧ HostOp.wellFormed (.wr (.name .bits) 0x100000000) = false := by
  decide
theorem test_wf_rd_reg : HostOp.wellFormed (.rd (.index 32) none) = false := by decide
theorem test_wf_rd_value : HostOp.wellFormed (.rd (.name .status) (some 0x100000000)) = false := by decide
theorem test_wf_poll_reg : HostOp.wellFormed (.poll (.index 32) 1 0) = false := by decide
theorem test_wf_poll_mask : HostOp.wellFormed (.poll (.name .status) 0x100000000 0) = false := by decide
theorem test_wf_poll_value : HostOp.wellFormed (.poll (.name .status) 1 0x100000000) = false := by decide

/-! ### Decoding: the words of R82, written out from the fields of R80 (bits 31:4 zero, opcode in bits 3:0) -/

theorem test_decode_nop : decode 0b0000000000000000000000000000_0000#32 = .command .nop := by decide
theorem test_decode_start : decode 0b0000000000000000000000000000_0001#32 = .command .start := by decide
theorem test_decode_sample : decode 0b0000000000000000000000000000_0010#32 = .command .sample := by decide
theorem test_decode_header : decode 0b0000000000000000000000000000_0011#32 = .command .header := by decide
theorem test_decode_pack : decode 0b0000000000000000000000000000_0100#32 = .command .pack := by decide
theorem test_decode_first_reserved_opcode : decode 0x00000005 = .illegal .reservedOpcode := by decide
/-- R84: `v[31:4] ≠ 0` with `op = 0` is illegal, not a NOP. -/
theorem test_decode_not_a_nop : decode 0x00000010 = .illegal .reservedBits := by decide
theorem test_encode : [Instr.nop, .start, .sample, .header, .pack].map encode = [0, 1, 2, 3, 4] := by decide
theorem test_table_word :
    decodeTableWord 32 3 = some .header ∧ decodeTableWord 32 5 = none ∧ decodeTableWord 8 0x103 = none := by decide

/-! ### Small states -/

/-- A configuration in the order of the register map. -/
def conf (sr bits f A N i pin : Nat) : ConfigRegs :=
  { sampleRate := .ofNat 32 sr, bits := .ofNat 32 bits, freq := .ofNat 32 f, amplitude := .ofNat 31 A,
    numSamples := .ofNat 32 N, sampleIndex := .ofNat 32 i, packIn := .ofNat 32 pin }

/-- The configuration of V1. -/
def confV1 : ConfigRegs := conf 48000 24 1000 300000 240000 0 0

/-- The word `v` accepted from reset with a configuration. -/
def accepted (v : Word) (k : ConfigRegs) : State := accept v { State.reset with conf := k }

/-- The next state of an outcome that is one. -/
def nextOf : Outcome State Fault Refusal → State
  | .next s => s
  | .fault r => nomatch r
  | .refused _ => State.reset

theorem stepWith_nextOf (c : Params) (s : State) : stepWith c s = .next (nextOf (stepWith c s)) := by
  obtain ⟨t, h, _⟩ := edgeStep_spec c s.nextEdge s
  rw [show stepWith c s = .next t from h]
  rfl

/-- STATUS after a command is accepted from reset and executed. -/
def statusAfter (v : Word) (i : Instr) (k : ConfigRegs) : Word := busRead (nextOf (exec i (accepted v k))) 2

/-! ### Each command -/

/-- The example of R184. -/
theorem test_nop : busRead (nextOf (busWrite exec false false 1 0
    { State.reset with status := { Status.reset with done := true, lastcmd := 1 } })) 2 = 0x00001002 := by decide

/-- V33, and NYQUIST as V34 orders it (R186). -/
theorem test_start_checks :
    statusAfter 1 .start (conf 0 12 1000 300000 240000 0 0) = 0x00001112
      ∧ statusAfter 1 .start (conf 0 24 1000 300000 0 0 0) = 0x00001212
      ∧ statusAfter 1 .start (conf 48000 24 30000 300000 0 0 0) = 0x00001312
      ∧ statusAfter 1 .start (conf 48000 24 25000 300000 240000 0 0) = 0x00001412
      ∧ statusAfter 1 .start (conf 48000 32 1000 300000 0x40000000 0 0) = 0x00001522 := by decide

/-- V1: the run starts and STATUS shows BUSY and LASTCMD 1; `2f = sr` is legal (R185). -/
theorem test_start_streams :
    statusAfter 1 .start confV1 = 0x00001001 ∧ statusAfter 1 .start (conf 48000 24 24000 300000 1 0 0) = 0x00001001
      ∧ busRead (nextOf (exec .start (accepted 1 confV1))) 17 = 0x000AFCA4 := by decide

/-- V12, rows 1 and 3; STATUS as V16. -/
theorem test_sample :
    busRead (nextOf (exec .sample (accepted 2 (conf 48000 12 1000 300000 0 1 0)))) 9 = 0x000098F6
      ∧ busRead (nextOf (exec .sample (accepted 2 (conf 48000 12 1000 300000 0 239999 0)))) 9 = 0xFFFF670A
      ∧ statusAfter 2 .sample (conf 48000 12 1000 300000 0 1 0) = 0x00002002 := by decide +kernel

/-- V16, row 1. -/
theorem test_sample_rate_zero : statusAfter 2 .sample (conf 0 24 1000 300000 5 1 0) = 0x00002212 := by decide

/-- V19. -/
theorem test_header :
    (nextOf (exec .header (accepted 3 confV1))).header = #v[0x46464952, 0x000AFCA4, 0x45564157, 0x20746D66, 0x00000010,
      0x00010001, 0x0000BB80, 0x00023280, 0x00180003, 0x61746164, 0x000AFC80] := by decide

/-- V21, V22, V20, V25, V26: STATUS at the limits. -/
theorem test_header_limits :
    statusAfter 3 .header (conf 48000 8 0 0 0xFFFFFFDB 0 0) = 0x00003002
      ∧ statusAfter 3 .header (conf 48000 8 0 0 0xFFFFFFDC 0 0) = 0x00003522
      ∧ statusAfter 3 .header (conf 1073741823 32 0 0 1 0 0) = 0x00003002
      ∧ statusAfter 3 .header (conf 1073741824 32 0 0 1 0 0) = 0x00003622
      ∧ statusAfter 3 .header (conf 48000 0x108 0 0 5 0 0) = 0x00003112 := by decide

/-- V29. -/
theorem test_pack :
    busRead (nextOf (exec .pack (accepted 4 (conf 0 24 0 0 0 0 0xFFFF670A)))) 11 = 0x00FF670A
      ∧ busRead (nextOf (exec .pack (accepted 4 (conf 0 8 0 0 0 0 0x000493E0)))) 11 = 0x000000E0
      ∧ busRead (nextOf (exec .pack (accepted 4 (conf 0 32 0 0 0 0 0x80000000)))) 11 = 0x80000000 := by decide

/-- V30. -/
theorem test_pack_bits : statusAfter 4 .pack (conf 0 12 0 0 0 0 7) = 0x00004112 := by decide

/-! ### The quantizer, the packer, the stream -/

/-- V13. -/
theorem test_ties : [1, 5, 7, 11, 2].map (fun p => quantExact 3 p 12) = [2, 2, -2, -2, 3] := by decide +kernel

/-- V12, the largest operands, and V15, row 2. -/
theorem test_quantizer :
    sampleAt .exact 2147483647 4294967295 4294967294 4294967295 = 3 ∧ sampleAt .exact 1000 3 7 2 = -782 := by decide +kernel

/-- V7 and V31. -/
theorem test_packer :
    packOne 39158 3 = [0xF6, 0x98, 0x00] ∧ packOne (-39158) 3 = [0x0A, 0x67, 0xFF] ∧ packOne 8388608 3 = [0, 0, 0x80]
      ∧ unpackOne [0x00, 0x00, 0x80] = -8388608 ∧ unpackOne [0x40, 0x9C] = -25536 := by decide

/-- P2: two header bytes and the last data bytes. -/
theorem test_stream_bytes :
    [0, 4, 47, 48, 49, 53, 54, 55].map (Snapshot.streamByte .exact
      { word := 1, conf := conf 48000 24 12000 8388607 4 0 0 }) = [0x52, 0x30, 0xFF, 0xFF, 0x7F, 0x01, 0x00, 0x80] := by
  decide

/-- P5, line 12: an illegal word, by the step of the machine. -/
theorem test_step_illegal : busRead (nextOf (step (State.reset.withFetchWord 32 0x10))) 2 = 0x00000842 := by decide

/-- 95_test_vectors.md, Part 3, P5: the triples of lines 18, 19, 20, 21 and 25. -/
theorem test_listing :
    [HostOp.cmd .start, .sink 10, .wait, .rd (.name .status) (some 0x1005), .ack].map listing
      = [some ⟨.write, 1, some 1⟩, none, some ⟨.read, 2, none⟩, some ⟨.read, 2, some 0x00001005⟩, some ⟨.write, 2, some 6⟩] := by
  decide

/-- P5, lines 18 to 24 with three bytes for ten: the run ends by the sink error, with the bytes taken counted. -/
theorem test_sink_lines :
    ((runProgram Config.device (fun _ => Edge.quiet) 8
      [.cmd .start, .sink 3, .cmd .sample, .rd (.name .status) (some 0x1005), .sinkErr, .rd (.name .status) (some 0x1736),
        .rd (.name .hdrBytes) (some 3)] { State.reset with conf := conf 48000 32 0 0 1000 0 0 }).map
      fun s => s.taken.map SinkByte.data) = some [0x46, 0x49, 0x52] := by decide

/-! ### States of a run

A run of one 32-bit sample of a silent wave (`f = 0`, `A = 0`): `D = 4`, `L = 48`. -/

def snapRun : Snapshot := { word := 1, conf := conf 48000 32 0 0 1 0 0 }

/-- The run with `pos` bytes taken, the next on offer, and the edges to come. -/
def running (pos : Nat) (edges : List Edge) : State :=
  { State.reset with
    status := { Status.reset with lastcmd := 1 }
    conf := snapRun.conf
    progress := { sampleCount := 0, dataBytes := .ofNat 32 (pos - 44), hdrBytes := .ofNat 6 (min pos 44) }
    header := headerWindow snapRun.headerBytes
    seq := .stream
    snap := snapRun
    outValid := true
    edges := edges
    taken := ((List.range pos).map fun k => { data := snapRun.streamByte .exact k, last := false }).reverse }

/-- An edge of a run: the sink ready or not, and failing or not. -/
def sinkEdge (ready err : Bool) (a : HostAccess := .idle) : Edge := { Edge.quiet with ready := ready, err := err, access := a }

/-- The states of the run keep the invariant, at every position: the premise of the statements about a run. -/
theorem running_inv {pos : Nat} (h : pos < 48) (edges : List Edge) (lanes : Nat) (h1 : 1 ≤ lanes) :
    (running pos edges).Inv { sine := .exact, lanes := lanes, oneLane := h1 } := by
  have hpos : (running pos edges).pos = pos := by simp [State.pos, running]; omega
  have hword : decode snapRun.word = .command .start := by decide
  have hL : snapRun.L = 48 := by decide
  have hB : snapRun.B = 4 := by decide
  have hvalid : snapRun.Valid := by unfold Snapshot.Valid; decide
  refine ⟨by simp [running], fun _ => ⟨hword, hvalid⟩, fun _ => rfl, fun _ => ⟨rfl, rfl, rfl⟩, rfl, ?_, by simp [running],
    fun _ => rfl, fun _ => by rw [hpos]; exact hL ▸ h, fun _ => ?_, by simp [running], by simp [running, State.reset],
    Nat.zero_le _, fun _ => ?_⟩
  · simp only [running, BitVec.toNat_ofNat]
    exact ⟨by omega, fun h => by rw [show pos - 44 = 0 by omega]; rfl⟩
  · have : pos - 44 < 4 := by omega
    rw [show (running pos edges).snap.B = 4 from hB]
    simp [running]
    omega
  · unfold State.runBytes
    rw [hpos]
    simp [running, List.take_of_length_le]

/-! ### Every statement's hypotheses are met -/

/-- CmdWriteWhileBusyIsDropped. -/
theorem witness_busy : (running 0 []).seq ≠ .idle ∧ (accepted 2 confV1).seq ≠ .idle := by decide

/-- CmdWriteWhileIdleIsAccepted, NopHasNoEffect, IllegalWordCompletesWithBadOpcode. -/
theorem witness_idle : State.reset.seq = .idle ∧ (0x10 : Word) ≠ 0 ∧ 0x5 ≤ (0x5 : Word).toNat := by decide

/-- SampleStoresTheGeneratorValue, both clauses. -/
theorem witness_sample :
    (accepted 2 (conf 1 0 0 0 0 0 0)).snap.conf.sampleRate ≠ 0 ∧ (accepted 2 (conf 0 0 0 0 0 0 0)).snap.conf.sampleRate = 0 := by
  decide

/-- What HeaderWritesTheWindow and HeaderFieldsAreNeverCut ask, and each failing check of HEADER, at the limits. -/
theorem witness_header :
    let ok := (accepted 3 (conf 48000 8 0 0 0xFFFFFFDB 0 0)).snap
    let size := (accepted 3 (conf 48000 8 0 0 0xFFFFFFDC 0 0)).snap
    let rate := (accepted 3 (conf 1073741824 32 0 0 1 0 0)).snap
    (ok.bits = 8 ∧ 0 < ok.sr ∧ ok.N * (ok.bits / 8) ≤ 0xFFFFFFDB ∧ ok.sr * (ok.bits / 8) ≤ 0xFFFFFFFF)
      ∧ (size.bits = 8 ∧ size.sr ≠ 0 ∧ 0xFFFFFFDB < size.N * (size.bits / 8))
      ∧ (rate.bits = 32 ∧ rate.sr ≠ 0 ∧ rate.N * (rate.bits / 8) ≤ 0xFFFFFFDB ∧ 0xFFFFFFFF < rate.sr * (rate.bits / 8))
      ∧ ((accepted 3 (conf 0 24 0 0 5 0 0)).snap.bits = 24 ∧ (accepted 3 (conf 0 24 0 0 5 0 0)).snap.sr = 0)
      ∧ ¬((accepted 3 (conf 0 12 0 0 5 0 0)).snap.bits ∈ [8, 16, 24, 32]) := by decide

/-- PackStoresTheLowBytes, both clauses at each width. -/
theorem witness_pack :
    [8, 16, 24, 32].map (fun b => (accepted 4 (conf 0 b 0 0 0 0 0)).snap.bits) = [8, 16, 24, 32]
      ∧ ¬((accepted 4 (conf 0 0x108 0 0 0 0 0)).snap.bits ∈ [8, 16, 24, 32]) := by decide

/-- StartWritesTheWindowAndStreams, at the Nyquist frequency and the largest counts. -/
theorem witness_start :
    (accepted 1 (conf 48000 24 24000 1 1 0 0)).snap.Valid ∧ (accepted 1 (conf 1073741823 32 0 1 1073741814 0 0)).snap.Valid := by
  unfold Snapshot.Valid; decide

/-- StartFailsAtItsFirstFailingCheck: each check fails alone, the earlier ones pass. -/
theorem witness_start_fails :
    let f (k : ConfigRegs) := firstFailing (startChecks (accepted 1 k).snap)
    f (conf 48000 12 0 0 1 0 0) = some .bitsIllegal ∧ f (conf 0 24 0 0 1 0 0) = some .rateZero
      ∧ f (conf 48000 24 0 0 0 0 0) = some .countZero ∧ f (conf 48000 24 24001 0 1 0 0) = some .nyquist
      ∧ f (conf 48000 24 24000 0 1431655754 0 0) = some .sizeOverflow
      ∧ f (conf 1073741824 32 0 0 1 0 0) = some .rateOverflow := by decide

/-- CommandFrame: an execution that ends in an error, and one that does not. -/
theorem witness_frame :
    let failed := exec .pack (accepted 4 (conf 0 12 0 0 0 0 7))
    let done := exec .header (accepted 3 confV1)
    failed = .next (nextOf failed) ∧ (nextOf failed).status.errcode ≠ .none ∧ (nextOf failed).seq = .idle
      ∧ done = .next (nextOf done) ∧ (nextOf done).status.errcode = .none :=
  ⟨rfl, by decide, by decide, rfl, by decide⟩

/-- UnpackingRecoversTheCutSample, at the ends of the range of one byte. -/
theorem witness_unpack : (1 : Nat) ≤ 1 ∧ (-2 : Int) ^ 7 = -128 ∧ -2 ^ (8 * 1 - 1) ≤ (-128 : Int) ∧ (127 : Int) < 2 ^ (8 * 1 - 1) := by
  decide

/-- The generator's statements, at the ends of the domain and at each rational point. -/
theorem witness_sine_domain :
    SineDomain (2 ^ 31 - 1) 0 1 ∧ SineDomain 3 1 12 ∧ SineDomain 3 5 12 ∧ SineDomain 3 7 12 ∧ SineDomain 3 11 12
      ∧ SineDomain 1 1 4 ∧ SineDomain 1 1 2 ∧ SineDomain 1 3 4 ∧ SineDomain 0 (2 ^ 32 - 2) (2 ^ 32 - 1) := by
  unfold SineDomain; decide

/-- ExactValuesAtRationalPoints, the tie clause: `3 × sin(2π / 12) = 3/2`. -/
theorem witness_tie : ∃ k : Int, idealValue 3 1 12 = k + 1 / 2 := by
  refine ⟨1, ?_⟩
  rw [idealValue, show 2 * Real.pi * (1 : Nat) / (12 : Nat) = Real.pi / 6 by push_cast; ring, Real.sin_pi_div_six]
  norm_num

/-- GeneratorProperties: an admitted generator and arguments of its last two clauses. -/
theorem witness_generator : AdmittedSine .exact ∧ 2 * 24000 = 48000 ∧ 1000 * 1 % 48000 + 1000 * 47 % 48000 = 48000 :=
  ⟨trivial, by decide, by decide⟩

/-- PhaseIsExact, WriteThenReadReturnsTheValue, ReadOnlyWordsIgnoreWrites: the ends of the ranges of words. -/
theorem witness_words :
    (0 : Nat) < 1 ∧ [(0 : RegIndex), 3, 4, 5, 6, 7, 8, 10].all (fun w => w.toNat ≠ 9 ∧ w.toNat < 11)
      ∧ (9 : RegIndex).toNat = 9 ∧ 11 ≤ (11 : RegIndex).toNat ∧ (31 : RegIndex).toNat = 31 := by decide

/-- ReadsHaveNoSideEffect and the statements about an edge without reset. -/
theorem witness_no_reset : (sinkEdge false false).rst = false ∧ State.reset.nextEdge.rst = false := by decide

/-- ResetWinsOverEverything, with a read at the edge. -/
theorem witness_reset :
    let s := running 10 [{ sinkEdge true true with rst := true, access := .read 2 }]
    s.nextEdge.rst = true ∧ s.nextEdge.access = .read 2 := by decide

/-- StepRunsTheDecodedCommand, both clauses. -/
theorem witness_step :
    let s := State.reset.withFetchWord 32 2
    let n := State.reset.withFetchWord 32 0
    (s.nextEdge.rst = false ∧ s.seq = .exec ∧ s.nextEdge.go = true ∧ decode s.snap.word = .command .sample)
      ∧ n.nextEdge.rst = false ∧ n.seq = .idle ∧ n.nextEdge.access = .write 1 0 ∧ decode 0 = .command .nop := by decide

/-- StepRunsTheDecodedCommand, the illegal word. -/
theorem witness_step_illegal :
    let s := State.reset.withFetchWord 32 0x10
    s.nextEdge.rst = false ∧ s.seq = .exec ∧ s.nextEdge.go = true ∧ decode s.snap.word = .illegal .reservedBits := by decide

/-- HostWriteOfAStepIsABusWrite: an idle block, and a BUSY one whose run ends at the edge. -/
theorem witness_host_write :
    ∀ s ∈ [{ State.reset with edges := [sinkEdge false false (.write 3 7)] }, running 47 [sinkEdge true false (.write 3 7)]],
      s.nextEdge.rst = false ∧ s.nextEdge.access = .write 3 7 := by decide

/-- StepWithoutAHostWrite: IDLE, EXEC without the sequencer's step, and STREAM. -/
theorem witness_no_host_write :
    (∀ w v, State.reset.nextEdge.access ≠ .write w v) ∧ State.reset.seq = .idle
      ∧ (let s := { accepted 1 confV1 with edges := [{ sinkEdge false false (.read 2) with go := false }] }
        s.nextEdge.rst = false ∧ s.seq = .exec ∧ s.nextEdge.go = false ∧ ∀ w v, s.nextEdge.access ≠ .write w v)
      ∧ (running 3 []).seq ≠ .idle :=
  ⟨fun _ _ => by simp [State.nextEdge, State.reset, Edge.quiet], rfl, ⟨rfl, rfl, rfl, fun _ _ => by simp [State.nextEdge, sinkEdge]⟩,
    by decide⟩

/-- HostOperationsDoWhatTheirLinesSay: operations that end. -/
theorem witness_host_operations :
    [HostOp.sink 0, .sink 3, .wait, .rd (.name .status) (some 0x1001), .rd (.name .status) (some 0), .rd (.name .bits) none,
      .wr (.name .freq) 1, .sinkErr, .cmd .pack, .ack].map (fun op =>
      (runOp Config.device (fun _ => Edge.quiet) 4 op (accepted 1 (conf 0 24 0 0 1 0 0))).isSome)
        = [true, false, true, true, false, true, true, true, true, true]
      ∧ (runOp Config.device (fun _ => Edge.quiet) 4 (.sink 3) (accepted 1 confV1)).isSome = true := by decide

/-- SinkAndWaitLinesEnd: a run with all its bytes left, and one with one; an accepted PACK. -/
theorem witness_lines_end :
    (∀ k : Nat, ((fun _ => Edge.quiet : Nat → Edge) k).offer = true ∧ ((fun _ => Edge.quiet : Nat → Edge) k).go = true)
      ∧ (running 0 []).Inv Config.device ∧ 48 ≤ (running 0 []).snap.L - (running 0 []).pos
      ∧ (running 47 []).Inv Config.device ∧ 1 ≤ (running 47 []).snap.L - (running 47 []).pos
      ∧ (accepted 4 (conf 0 24 0 0 0 0 7)).Inv Config.device ∧ (accepted 4 (conf 0 24 0 0 0 0 7)).seq = .exec
      ∧ decode (accepted 4 (conf 0 24 0 0 0 0 7)).snap.word ≠ .command .start := by
  refine ⟨fun _ => ⟨rfl, rfl⟩, running_inv (by decide) _ 1 (by decide), by decide, running_inv (by decide) _ 1 (by decide),
    by decide, ?_, rfl, by decide⟩
  exact ⟨by decide, fun h => absurd h (by decide), by decide, by decide, by decide, by decide, by decide, by decide, by decide, by decide,
    by decide, by decide, by decide, by decide⟩

/-- SequencerTransitions and SnapshotIsFixedWhileBusy: a step from each sequencer state. -/
theorem witness_transitions (c : Params) :
    [State.reset, accepted 1 confV1, running 3 []].map State.seq = [.idle, .exec, .stream]
      ∧ ∀ s ∈ [State.reset, accepted 1 confV1, running 3 []], s.nextEdge.rst = false ∧ ∃ t, stepWith c s = .next t :=
  ⟨by decide, fun s hs => ⟨by revert s; decide, _, stepWith_nextOf c s⟩⟩

/-- ConfigurationDoesNotReachARunningCommand. -/
theorem witness_configuration :
    let s := running 3 [sinkEdge true false (.write 3 44100)]
    s.nextEdge.rst = false ∧ s.seq ≠ .idle ∧ (∀ w, s.nextEdge.access ≠ .read w)
      ∧ stepWith Config.device s = .next (nextOf (stepWith Config.device s)) :=
  ⟨by decide, by decide, by decide, stepWith_nextOf ..⟩

/-- ResultsChangeOnlyByTheirCommands: a step that changes each of the three. -/
theorem witness_results :
    let s (v : Word) := { accepted v (conf 48000 24 12000 7 1 1 7) with edges := [Edge.run] }
    (nextOf (step (s 2))).sampleResult ≠ (s 2).sampleResult ∧ (nextOf (step (s 4))).packOut ≠ (s 4).packOut
      ∧ (nextOf (step (s 3))).header ≠ (s 3).header ∧ (nextOf (step (s 1))).header ≠ (s 1).header := by decide

/-- CompletionWinsOverHostWrites: a completion with a STATUS write, and one with a CMD write. -/
theorem witness_completion :
    let s (a : HostAccess) := running 47 [sinkEdge true false a]
    (s (.write 2 6)).nextEdge.rst = false ∧ (s (.write 2 6)).seq ≠ .idle
      ∧ (nextOf (stepWith Config.device (s (.write 2 6)))).seq = .idle
      ∧ (nextOf (stepWith Config.device (s (.write 1 1)))).seq = .idle := by decide

/-- InterruptFollowsDone: the acknowledgement and the acceptance. -/
theorem witness_interrupt :
    let s (a : HostAccess) := { State.reset with ie := true, status := { Status.reset with done := true }, edges := [{ Edge.quiet with access := a }] }
    (s (.write 2 6)).irq = true ∧ (s (.write 2 6)).nextEdge.access = .write 2 6 ∧ (6 : Word).getLsbD 1 = true
      ∧ (s (.write 1 1)).nextEdge.rst = false ∧ (s (.write 1 1)).seq = .idle ∧ (s (.write 1 1)).nextEdge.access = .write 1 1 := by
  decide

/-- OfferedByteIsTheStreamByte, LastByteCompletesTheRun, RunEndsWithExactlyItsStreamBytes: the last byte, with and without a
sink error. -/
theorem witness_last_byte :
    let s (err : Bool) := running 47 [sinkEdge true err]
    (s false).Inv Config.device ∧ (s true).Inv Config.device ∧ (s false).pos = (s false).snap.L - 1
      ∧ (nextOf (stepWith Config.device (s false))).seq = .idle ∧ (nextOf (stepWith Config.device (s true))).seq = .idle :=
  ⟨running_inv (by decide) _ 1 (by decide), running_inv (by decide) _ 1 (by decide), by decide, by decide, by decide⟩

/-- OfferIsStableUntilTaken. -/
theorem witness_offer :
    let s := running 43 [sinkEdge false false]
    s.nextEdge.rst = false ∧ s.nextEdge.err = false ∧ s.nextEdge.ready = false ∧ s.seq = .stream ∧ s.outValid = true := by
  decide

/-- TakenByteIsCounted: the last header byte, the first and the last data byte, and a byte not taken. -/
theorem witness_taken :
    (∀ pos ∈ [43, 44, 47], let s := running pos [sinkEdge true false]
      s.nextEdge.rst = false ∧ s.seq = .stream ∧ s.outValid = true ∧ s.nextEdge.ready = true ∧ s.pos = pos
        ∧ stepWith Config.device s = .next (nextOf (stepWith Config.device s)))
      ∧ (let s := { running 44 [sinkEdge true false] with outValid := false }
        s.nextEdge.rst = false ∧ s.seq = .stream ∧ s.outValid = false) := by
  refine ⟨fun pos h => ?_, by decide⟩
  simp only [List.mem_cons, List.not_mem_nil, or_false] at h
  rcases h with rfl | rfl | rfl <;> exact ⟨rfl, rfl, rfl, rfl, by decide, stepWith_nextOf ..⟩

/-- TakenByteIsCounted and StreamEdgeChangesTheRunAlone, the run that goes on and the one that ends: a bubble edge with a host
write, a byte that is not the last, the last byte, and a sink error. -/
theorem witness_stream_edge :
    let s (pos : Nat) (valid err : Bool) := { running pos [sinkEdge true err (.write 6 7)] with outValid := valid }
    (∀ x ∈ [s 10 false false, s 10 true false, s 47 true false, s 10 false true],
      x.nextEdge.rst = false ∧ x.seq = .stream ∧ x.nextEdge.access = .write 6 7)
      ∧ (s 10 false false).nextEdge.err = false ∧ ¬((s 10 false false).outValid = true)
      ∧ (s 10 true false).pos ≠ (s 10 true false).snap.L - 1 ∧ (s 47 true false).pos = (s 47 true false).snap.L - 1
      ∧ (s 10 false true).nextEdge.err = true
      ∧ [s 10 false false, s 10 true false, s 47 true false, s 10 false true].map
          (fun x => (nextOf (stepWith Config.device x)).seq) = [.stream, .stream, .idle, .idle] := by decide

/-- SinkErrorEndsTheRun, with and without a byte taken at the edge. -/
theorem witness_sink_error (ready : Bool) :
    let s := running 10 [sinkEdge ready true]
    s.nextEdge.rst = false ∧ s.nextEdge.err = true ∧ s.seq = .stream
      ∧ stepWith Config.device s = .next (nextOf (stepWith Config.device s)) :=
  ⟨rfl, rfl, rfl, stepWith_nextOf ..⟩

/-- SinkInputsAreIgnoredOutsideARun, StreamIsTheHeaderThenThePackedSamples. -/
theorem witness_outside_a_run : State.reset.seq ≠ .stream ∧ 0 < snapRun.B := by decide

/-- ReadySinkGetsTheWholeFile: from the first byte and from the last. -/
theorem witness_ready_sink (pos : Nat) (h : pos = 0 ∨ pos = 47) :
    let es := List.replicate (48 - pos) (sinkEdge true false)
    let s := running pos es
    s.Inv Config.device ∧ s.seq = .stream ∧ s.outValid = true ∧ s.edges = es ++ [] ∧ es.length = s.snap.L - s.pos
      ∧ ∀ e ∈ es, e.rst = false ∧ e.err = false ∧ e.ready = true ∧ e.offer = true :=
  ⟨running_inv (by omega) _ 1 (by decide), rfl, rfl, by simp [running], by rcases h with rfl | rfl <;> decide,
    fun e he => by rw [List.eq_of_mem_replicate he]; decide⟩

/-- LanesAreUnobservable: one lane against two, one of which has computed the sample ahead. -/
theorem witness_lanes :
    let lanes := [{ index := 0, sample := 0 : Lane }]
    (running 10 []).Inv { sine := .exact, lanes := 1, oneLane := by decide }
      ∧ ({ running 10 [] with lanes := lanes } : State).Inv { sine := .exact, lanes := 2, oneLane := by decide } := by
  have h := running_inv (pos := 10) (by decide) [] 2 (by decide)
  exact ⟨running_inv (by decide) _ 1 (by decide), h.1, h.2, h.3, h.4, h.5, h.6, h.7, h.8, h.9, h.10, fun hq => absurd rfl hq,
    by decide, by decide, h.14⟩

/-- EveryStepKeepsTheInvariant. -/
theorem witness_inv : (running 44 [sinkEdge true false]).Inv Config.device
    ∧ stepWith Config.device (running 44 [sinkEdge true false]) = .next (nextOf (stepWith Config.device (running 44 [sinkEdge true false]))) :=
  ⟨running_inv (by decide) _ 1 (by decide), stepWith_nextOf ..⟩

end Sys2Proof.Tests
end

section
/-! The machine of `step` and `exec` among the machines with any parameters (R2, R5, R103). -/

namespace Sys2Proof.Machine

open Sys2Proof

/-- The default machine's step is the parameterised one: the two differ only in how they name the commands' execution. -/
theorem step_eq_stepWith_device (s : State) : step s = stepWith Config.device s := by
  have hexec : execWith Config.device.sine = exec := funext₂ execWith_device
  rw [step, stepWith, hexec]

/-- R103: the quantizer reaches SAMPLE alone among the commands. -/
theorem execWith_eq_exec_of_ne_sample (impl : SineImpl) {i : Instr} (s : State) (hi : i ≠ .sample) :
    execWith impl i s = exec i s := by
  cases i with
  | sample => exact absurd rfl hi
  | nop | start | header | pack => rfl

/-- Settles O34: the default quantizer is the EXACT one, so `execWith_device` speaks of the EXACT machine. -/
theorem defaultMachineIsExact : Obligations.DefaultMachineIsExact :=
  ⟨rfl, step_eq_stepWith_device, execWith_device, fun impl _ s => execWith_eq_exec_of_ne_sample impl s⟩

end Sys2Proof.Machine
end

section
/-! The parts of an edge (R73, R228): what the sequencer, the sink and the host can change, and what they leave. -/

namespace Sys2Proof.Machine

open Sys2Proof

variable {impl : SineImpl} {c : Params} {i : Instr} {e : Edge} {s t : State} {v : Word} {w : RegIndex} {busyBefore : Bool}

/-! ### BUSY, and the two parts of an edge -/

theorem busy_eq_false_iff : s.busy = false ↔ s.seq = .idle := by simp [State.busy]

theorem busy_eq_true (h : s.seq ≠ .idle) : s.busy = true := by simp [State.busy, h]

/-- Without reset an edge is the sequencer's part and then the host's. -/
theorem stepWith_parts (hrst : s.nextEdge.rst = false) (h : stepWith c s = .next t) :
    ∃ s1, SequencerCase c s.nextEdge (beginEdge s.nextEdge s) s1
      ∧ HostCase s.nextEdge s.busy (present s.nextEdge s1) t := by
  rcases stepWith_cases h with ⟨hrst', _⟩ | ⟨_, hparts⟩
  · simp [hrst] at hrst'
  · exact hparts

/-- The sequencer of an idle block does nothing. -/
theorem SequencerCase.eq_of_idle (hs : SequencerCase c e s t) (hidle : s.seq = .idle) : t = s := by
  cases hs with
  | idle _ => rfl
  | waits hseq _ | command hseq _ _ _ | illegal hseq _ _ | stream hseq => simp [hidle] at hseq

/-! ### An edge of a run -/

/-- The state of a run at an edge before its end is looked for (R191–R193): the byte taken, if one is, and the lanes' work. -/
def afterByte (c : Params) (e : Edge) (s : State) : State :=
  laneWork c e (if takes e s then takeByte c.sine s else s)

/-- An edge of a run: the byte, then the end of the run, by a sink error or by its last byte. -/
theorem streamEdge_eq (c : Params) (e : Edge) (s : State) : streamEdge c e s =
    if e.err then raise .sinkError (afterByte c e s)
    else if takes e s && s.offeredLast then raise .none (afterByte c e s)
    else afterByte c e s := rfl

@[simp] theorem afterByte_ie : (afterByte c e s).ie = s.ie := by unfold afterByte; split <;> simp
@[simp] theorem afterByte_status : (afterByte c e s).status = s.status := by unfold afterByte; split <;> simp
@[simp] theorem afterByte_conf : (afterByte c e s).conf = s.conf := by unfold afterByte; split <;> simp
@[simp] theorem afterByte_sampleResult : (afterByte c e s).sampleResult = s.sampleResult := by unfold afterByte; split <;> simp
@[simp] theorem afterByte_packOut : (afterByte c e s).packOut = s.packOut := by unfold afterByte; split <;> simp
@[simp] theorem afterByte_header : (afterByte c e s).header = s.header := by unfold afterByte; split <;> simp
@[simp] theorem afterByte_seq : (afterByte c e s).seq = s.seq := by unfold afterByte; split <;> simp
@[simp] theorem afterByte_snap : (afterByte c e s).snap = s.snap := by unfold afterByte; split <;> simp
@[simp] theorem afterByte_edges : (afterByte c e s).edges = s.edges := by unfold afterByte; split <;> simp
@[simp] theorem afterByte_readData : (afterByte c e s).readData = s.readData := by unfold afterByte; split <;> simp
@[simp] theorem afterByte_clock : (afterByte c e s).clock = s.clock := by unfold afterByte; split <;> simp

theorem streamEdge_results (c : Params) (e : Edge) (s : State) : (streamEdge c e s).sampleResult = s.sampleResult
    ∧ (streamEdge c e s).packOut = s.packOut ∧ (streamEdge c e s).header = s.header := by
  rw [streamEdge_eq]
  split_ifs <;> simp [raise]

/-! ### What the sequencer's part never changes -/

/-- What neither a command's execution nor an edge of a run changes (R22, R26, R29, R38, R49). -/
structure SequencerFrame (s t : State) : Prop where
  ie : t.ie = s.ie
  conf : t.conf = s.conf
  snap : t.snap = s.snap
  drop : t.status.drop = s.status.drop
  lastcmd : t.status.lastcmd = s.status.lastcmd
  edges : t.edges = s.edges
  readData : t.readData = s.readData
  clock : t.clock = s.clock

theorem SequencerFrame.refl (s : State) : SequencerFrame s s := ⟨rfl, rfl, rfl, rfl, rfl, rfl, rfl, rfl⟩

theorem SequencerFrame.raise (h : SequencerFrame s t) (cause : ErrCause) : SequencerFrame s (raise cause t) := { h with }

theorem ExecCase.frame (ht : ExecCase impl s i t) : SequencerFrame s t := by
  cases ht <;> exact { SequencerFrame.refl s with }

theorem streamEdge_frame (c : Params) (e : Edge) (s : State) : SequencerFrame s (streamEdge c e s) := by
  have h : SequencerFrame s (afterByte c e s) := by constructor <;> simp
  rw [streamEdge_eq]
  split_ifs
  · exact h.raise _
  · exact h.raise _
  · exact h

theorem SequencerCase.frame (hs : SequencerCase c e s t) : SequencerFrame s t := by
  cases hs with
  | idle _ | waits _ _ => exact .refl s
  | command _ _ _ ht => exact ht.frame
  | illegal _ _ _ => exact (SequencerFrame.refl s).raise _
  | stream _ => exact streamEdge_frame c e s

/-! ### The results, the progress and the sequencer state -/

/-- A command's execution streams nothing: the bytes come later (R183). -/
theorem ExecCase.progress_taken (ht : ExecCase impl s i t) : t.progress = s.progress ∧ t.taken = s.taken := by
  cases ht <;> exact ⟨rfl, rfl⟩

theorem ExecCase.sampleResult_cases (ht : ExecCase impl s i t) :
    t.sampleResult = s.sampleResult ∨ i = .sample ∧ t.status.errcode = .none := by
  cases ht with
  | sample _ => exact .inr ⟨rfl, rfl⟩
  | _ => exact .inl rfl

theorem ExecCase.packOut_cases (ht : ExecCase impl s i t) :
    t.packOut = s.packOut ∨ i = .pack ∧ t.status.errcode = .none := by
  cases ht with
  | pack => exact .inr ⟨rfl, rfl⟩
  | _ => exact .inl rfl

theorem ExecCase.header_cases (ht : ExecCase impl s i t) :
    t.header = s.header ∨ i = .header ∧ t.status.errcode = .none ∨ i = .start ∧ t.seq = .stream := by
  cases ht with
  | header => exact .inr (.inl ⟨rfl, rfl⟩)
  | start _ => exact .inr (.inr ⟨rfl, rfl⟩)
  | _ => exact .inl rfl

theorem SequencerCase.sampleResult_cases (hs : SequencerCase c e s t) : t.sampleResult = s.sampleResult
    ∨ s.seq = .exec ∧ decode s.snap.word = .command .sample ∧ t.status.errcode = .none := by
  cases hs with
  | idle _ | waits _ _ | illegal _ _ _ => exact .inl rfl
  | command hseq _ hd ht => exact ht.sampleResult_cases.imp_right fun ⟨hi, herr⟩ => ⟨hseq, hi ▸ hd, herr⟩
  | stream _ => exact .inl (streamEdge_results c e s).1

theorem SequencerCase.packOut_cases (hs : SequencerCase c e s t) : t.packOut = s.packOut
    ∨ s.seq = .exec ∧ decode s.snap.word = .command .pack ∧ t.status.errcode = .none := by
  cases hs with
  | idle _ | waits _ _ | illegal _ _ _ => exact .inl rfl
  | command hseq _ hd ht => exact ht.packOut_cases.imp_right fun ⟨hi, herr⟩ => ⟨hseq, hi ▸ hd, herr⟩
  | stream _ => exact .inl (streamEdge_results c e s).2.1

theorem SequencerCase.header_cases (hs : SequencerCase c e s t) : t.header = s.header
    ∨ s.seq = .exec ∧ (decode s.snap.word = .command .header ∧ t.status.errcode = .none
      ∨ decode s.snap.word = .command .start ∧ t.seq = .stream) := by
  cases hs with
  | idle _ | waits _ _ | illegal _ _ _ => exact .inl rfl
  | command hseq _ hd ht =>
    refine ht.header_cases.imp_right fun hi => ⟨hseq, ?_⟩
    exact hi.imp (fun ⟨hi, herr⟩ => ⟨hi ▸ hd, herr⟩) fun ⟨hi, hstream⟩ => ⟨hi ▸ hd, hstream⟩
  | stream _ => exact .inl (streamEdge_results c e s).2.2

theorem ExecCase.seq_cases (ht : ExecCase impl s i t) : t.seq = s.seq ∨ t.seq = .idle ∨ t.seq = .stream ∧ i = .start := by
  cases ht with
  | nop => exact .inl rfl
  | start _ => exact .inr (.inr ⟨rfl, rfl⟩)
  | _ => exact .inr (.inl rfl)

theorem streamEdge_seq_cases (c : Params) (e : Edge) (s : State) :
    (streamEdge c e s).seq = s.seq ∨ (streamEdge c e s).seq = .idle := by
  rw [streamEdge_eq]
  split_ifs
  · exact .inr rfl
  · exact .inr rfl
  · exact .inl afterByte_seq

theorem SequencerCase.seq_cases (hs : SequencerCase c e s t) :
    t.seq = s.seq ∨ t.seq = .idle ∨ t.seq = .stream ∧ s.seq = .exec ∧ decode s.snap.word = .command .start := by
  cases hs with
  | idle _ | waits _ _ => exact .inl rfl
  | command hseq _ hd ht => exact ht.seq_cases.imp_right (.imp_right fun ⟨hstream, hi⟩ => ⟨hstream, hseq, hi ▸ hd⟩)
  | illegal _ _ _ => exact .inr (.inl rfl)
  | stream _ => exact (streamEdge_seq_cases c e s).imp_right .inl

/-! ### The host's part -/

/-- EXEC is the one sequencer state the host can enter, from a block that was idle before the edge (R181). -/
theorem HostCase.seq_cases (ht : HostCase e busyBefore s t) : t.seq = s.seq ∨ busyBefore = false ∧ t.seq = .exec := by
  cases ht with
  | accepted _ _ hb _ => exact .inr ⟨hb, rfl⟩
  | plain _ _ _ _ _ => exact .inl (plainWrite_seq ..)
  | _ => exact .inl rfl

/-- A host access to a BUSY block reaches neither the sequencer nor the command in progress (R38, R182). -/
theorem HostCase.of_busy (ht : HostCase e true s t) :
    t.seq = s.seq ∧ t.snap = s.snap ∧ t.status.errcode = s.status.errcode := by
  cases ht with
  | noWrite _ | dropped _ _ _ | status _ _ => exact ⟨rfl, rfl, rfl⟩
  | nop _ _ hb _ | accepted _ _ hb _ => cases hb
  | plain _ _ _ _ _ => simp

/-- No host access writes a result register or a header word (R62). -/
theorem HostCase.results (ht : HostCase e busyBefore s t) :
    t.sampleResult = s.sampleResult ∧ t.packOut = s.packOut ∧ t.header = s.header := by
  cases ht with
  | plain _ _ _ _ _ => simp
  | _ => exact ⟨rfl, rfl, rfl⟩

/-- The only word of NOP is 0 (R81, R184). -/
theorem eq_zero_of_decode_nop (h : decode v = .command .nop) : v = 0 := by
  unfold decode decodeOp at h
  split at h
  · cases h
  next hrsv =>
    have hop : (opField v).toNat = 0 := by
      split at h
      next h0 => exact h0
      all_goals simp at h
    have hhigh : (rsvField v).toNat = 0 := by simpa using congrArg BitVec.toNat (not_not.mp hrsv)
    rw [opField, BitVec.extractLsb'_toNat] at hop
    rw [rsvField, BitVec.extractLsb'_toNat] at hhigh
    apply BitVec.eq_of_toNat_eq
    simp only [Nat.shiftRight_eq_div_pow, BitVec.toNat_ofNat, BitVec.ofNat_eq_ofNat] at *
    omega

/-- A write to STATUS clears as R63 says, at the edge of a completion or not. -/
theorem HostCase.of_status_write (ht : HostCase e busyBefore s t) (ha : e.access = .write 2 v) :
    t = statusWrite (busyBefore && !s.busy) v s := by
  cases ht with
  | noWrite h => exact absurd ha (h 2 v)
  | dropped _ h _ | nop _ h _ _ | accepted _ h _ _ => simp [ha] at h
  | status _ h => cases ha.symm.trans h; rfl
  | plain _ _ h _ h2 => cases ha.symm.trans h; exact absurd rfl h2

/-- A CMD write to a block that was idle is an acceptance, unless the word is NOP's (R180). -/
theorem HostCase.of_cmd_write (ht : HostCase e false s t) (ha : e.access = .write 1 v) (hv : v ≠ 0) : t = accept v s := by
  cases ht with
  | noWrite h => exact absurd ha (h 1 v)
  | dropped _ _ hb => cases hb
  | nop _ h _ hd => cases ha.symm.trans h; exact absurd (eq_zero_of_decode_nop hd) hv
  | accepted _ h _ _ => cases ha.symm.trans h; rfl
  | status _ h => simp [ha] at h
  | plain _ _ h h1 _ => cases ha.symm.trans h; exact absurd rfl h1

end Sys2Proof.Machine
end

section
/-! The invariant of the machine: each part of an edge keeps it (R37, R195, R222). -/

namespace Sys2Proof.Machine

open Sys2Proof

variable {c : Params} {i : Instr} {e : Edge} {s t : State} {v : Word} {busyBefore : Bool}

/-- The progress clause of the invariant (R191, R43): header bytes come first, and there are 44 of them. -/
def Progress.HeaderFirst (p : Progress) : Prop :=
  p.hdrBytes.toNat ≤ 44 ∧ (p.hdrBytes.toNat < 44 → p.dataBytes = 0)

theorem Progress.zero_headerFirst : Progress.zero.HeaderFirst := by unfold HeaderFirst; decide

/-- Of an idle block the invariant asks little: a cause reported with its code, header bytes first, nothing offered and no
lane at work. -/
theorem State.Inv.of_idle (hseq : s.seq = .idle) (hcode : s.status.errcode = s.status.errcause.code)
    (hfirst : s.progress.HeaderFirst) (hvalid : s.outValid = false) (hlanes : s.lanes = []) : s.Inv c where
  execWord := by simp [hseq]
  streamValid := by simp [hseq]
  lastcmd := by simp [hseq]
  busyStatus := by simp [hseq]
  causeCode := hcode
  headerFirst := hfirst
  startExec := by simp [hseq]
  window := by simp [hseq]
  position := by simp [hseq]
  sampleCount := by simp [hseq]
  quiet _ := ⟨hvalid, hlanes⟩
  laneSamples := by simp [hlanes]
  laneCount := by simp [hlanes]
  bytesTaken := by simp [hseq]

theorem resetEdge_inv (c : Params) (e : Edge) (s : State) : (resetEdge e s).Inv c :=
  .of_idle rfl rfl Progress.zero_headerFirst rfl rfl

/-- A completion restores the invariant from a state in which only the header bytes are known to come first. -/
theorem raise_inv (cause : ErrCause) (hfirst : s.progress.HeaderFirst) : (raise cause s).Inv c :=
  .of_idle rfl rfl hfirst rfl rfl

theorem beginEdge_inv (h : s.Inv c) : (beginEdge e s).Inv c := { h with }

theorem drop_inv (h : s.Inv c) : (drop s).Inv c := { h with }

theorem plainWrite_inv (h : s.Inv c) {w : RegIndex} : (plainWrite w v s).Inv c := by
  unfold plainWrite
  split
  · exact { h with }
  · exact { h with }

/-- Whatever a STATUS write leaves of DONE, it sets nothing. -/
theorem statusWrite_inv (h : s.Inv c) {completion : Bool} : (statusWrite completion v s).Inv c :=
  { h with
    busyStatus := fun hseq => by
      obtain ⟨hdone, hcode, hcause⟩ := h.busyStatus hseq
      exact ⟨by simp [Status.hostWrite, hdone], hcode, hcause⟩ }

theorem present_inv (h : s.Inv c) : (present e s).Inv c := by
  unfold present
  split
  next hp => exact { h with quiet := fun hne => absurd hp.1 hne }
  next => exact h

theorem laneWork_inv (h : s.Inv c) (hseq : s.seq = .stream) : (laneWork c e s).Inv c := by
  obtain ⟨hcount, hsamples⟩ := laneWork_lanes (e := e) h.laneCount h.laneSamples
  obtain ⟨lanes, hlanes⟩ := laneWork_eq c e s
  rw [hlanes] at hcount hsamples ⊢
  exact { h with
    quiet := fun hne => absurd hseq hne
    laneSamples := hsamples
    laneCount := hcount }

/-! ### Acceptance and the execution step -/

/-- Acceptance (R181) of a word other than NOP by an idle block. -/
theorem accept_inv (h : s.Inv c) (hidle : s.seq = .idle) (hv : decode v ≠ .command .nop) : (accept v s).Inv c := by
  obtain ⟨hvalid, hlanes⟩ := h.quiet (by simp [hidle])
  have hfirst : (accept v s).progress.HeaderFirst := by
    rw [accept_progress]
    split
    · exact Progress.zero_headerFirst
    · exact h.headerFirst
  exact {
    execWord := fun _ => hv
    streamValid := by simp
    lastcmd := fun _ => rfl
    busyStatus := fun _ => ⟨rfl, rfl, rfl⟩
    causeCode := rfl
    headerFirst := hfirst
    startExec := fun _ hd => by simpa using fun hne => absurd hd hne
    window := by simp
    position := by simp
    sampleCount := by simp
    quiet := fun _ => ⟨hvalid, hlanes⟩
    laneSamples := by simp [hlanes]
    laneCount := by simp [hlanes]
    bytesTaken := by simp }

/-- A START that passes its checks begins a run at position 0 with nothing streamed (R181, R185). -/
theorem startStream_inv (h : s.Inv c) (hseq : s.seq = .exec) (hd : decode s.snap.word = .command .start)
    (hvalid : s.snap.Valid) :
    State.Inv c { s with header := headerWindow s.snap.headerBytes, seq := .stream, outValid := false, lanes := [] } := by
  have hbusy : s.seq ≠ .idle := by simp [hseq]
  have hzero : s.progress = .zero := h.startExec hseq hd
  have hpos : s.pos = 0 := by rw [State.pos, hzero]; rfl
  exact {
    execWord := by simp
    streamValid := fun _ => ⟨hd, hvalid⟩
    lastcmd := fun _ => h.lastcmd hbusy
    busyStatus := fun _ => h.busyStatus hbusy
    causeCode := h.causeCode
    headerFirst := h.headerFirst
    startExec := by simp
    window := fun _ => rfl
    position := fun _ => (show s.pos < s.snap.L by rw [hpos, Snapshot.L]; omega)
    sampleCount := fun _ => by simp [hzero, Progress.zero]
    quiet := by simp
    laneSamples := by simp
    laneCount := by simp
    bytesTaken := fun _ => (show (s.taken.take s.pos).reverse = (List.range s.pos).map _ by simp [hpos]) }

theorem ExecCase.inv (ht : ExecCase c.sine s i t) (h : s.Inv c) (hseq : s.seq = .exec)
    (hd : decode s.snap.word = .command i) : t.Inv c := by
  cases ht with
  | nop => exact absurd hd (h.execWord hseq)
  | failed cause _ _ => exact raise_inv cause h.headerFirst
  | sample _ => exact .of_idle rfl rfl h.headerFirst rfl rfl
  | header => exact .of_idle rfl rfl h.headerFirst rfl rfl
  | pack => exact .of_idle rfl rfl h.headerFirst rfl rfl
  | start hvalid => exact startStream_inv h hseq hd hvalid

/-! ### One byte of a run -/

/-- DATA_BYTES of a run has room for one more byte: a valid D fits 32 bits (R134). -/
theorem State.Inv.dataBytes_succ_lt (h : s.Inv c) (hseq : s.seq = .stream) : s.progress.dataBytes.toNat + 1 < 2 ^ 32 := by
  obtain ⟨_, _, _, _, hD, _⟩ := (h.streamValid hseq).2
  obtain ⟨h44, hzero⟩ := h.headerFirst
  have hpos := h.position hseq
  rw [Snapshot.L, State.pos] at hpos
  by_cases hlt : s.progress.hdrBytes.toNat < 44
  · rw [hzero hlt]; decide
  · omega

/-- Taking a byte moves the position by one and keeps header bytes first. -/
theorem State.Inv.takeByte_pos (h : s.Inv c) (hseq : s.seq = .stream) :
    (takeByte c.sine s).pos = s.pos + 1 ∧ (takeByte c.sine s).progress.HeaderFirst := by
  obtain ⟨h44, hzero⟩ := h.headerFirst
  obtain ⟨hpos, h44', hzero', _⟩ := count_pos (B := s.snap.B) h44 hzero (h.dataBytes_succ_lt hseq) (pos := s.pos) rfl
  exact ⟨hpos, h44', hzero'⟩

/-- The byte taken joins those of the run, unmarked when it is not the last. -/
theorem State.Inv.takeByte_runBytes (h : s.Inv c) (hseq : s.seq = .stream) (hlast : s.offeredLast = false) :
    (takeByte c.sine s).runBytes
      = (List.range (s.pos + 1)).map fun k => { data := s.snap.streamByte c.sine k, last := false } := by
  have hbyte := offeredByte_eq fun l hl => (h.laneSamples l hl).1
  have hbytes := h.bytesTaken hseq
  rw [State.runBytes] at hbytes
  rw [State.runBytes, (h.takeByte_pos hseq).1, takeByte_taken, List.take_succ_cons, List.reverse_cons, hbytes, hbyte, hlast,
    List.range_succ, List.map_append, List.map_singleton]

/-- Taking any byte but the last goes on with the run. -/
theorem takeByte_inv (h : s.Inv c) (hseq : s.seq = .stream) (hlast : s.offeredLast = false) :
    (takeByte c.sine s).Inv c := by
  obtain ⟨hpos, hfirst⟩ := h.takeByte_pos hseq
  obtain ⟨h44, hzero⟩ := h.headerFirst
  obtain ⟨hd, hvalid⟩ := h.streamValid hseq
  have hB : 0 < s.snap.B := by have := hvalid.1; rw [Snapshot.B]; omega
  have hbefore := h.position hseq
  have hnext : s.pos + 1 < s.snap.L := by
    have : s.pos ≠ s.snap.L - 1 := by simpa [State.offeredLast] using hlast
    omega
  exact { h with
    headerFirst := hfirst
    startExec := by simp [hseq]
    position := fun _ => hpos ▸ hnext
    sampleCount := fun _ => count_samples h44 hzero (h.dataBytes_succ_lt hseq) hB (h.sampleCount hseq) rfl
    quiet := fun hne => absurd hseq hne
    laneSamples := fun l hl => by
      obtain ⟨hmem, hindex⟩ := List.mem_filter.mp hl
      obtain ⟨hsample, _, hN⟩ := h.laneSamples l hmem
      exact ⟨hsample, hpos ▸ of_decide_eq_true hindex, hN⟩
    laneCount := (List.length_filter_le _ _).trans h.laneCount
    bytesTaken := fun _ => hpos ▸ h.takeByte_runBytes hseq hlast }

theorem State.Inv.afterByte_headerFirst (h : s.Inv c) (hseq : s.seq = .stream) :
    (afterByte c e s).progress.HeaderFirst := by
  rw [afterByte, laneWork_progress]
  split
  · exact (h.takeByte_pos hseq).2
  · exact h.headerFirst

theorem afterByte_inv (h : s.Inv c) (hseq : s.seq = .stream) (hend : ¬(takes e s && s.offeredLast) = true) :
    (afterByte c e s).Inv c := by
  unfold afterByte
  split
  next htakes => exact laneWork_inv (takeByte_inv h hseq (by simpa [htakes] using hend)) hseq
  next => exact laneWork_inv h hseq

theorem streamEdge_inv (h : s.Inv c) (hseq : s.seq = .stream) : (streamEdge c e s).Inv c := by
  rw [streamEdge_eq]
  split_ifs with _ hend
  · exact raise_inv _ (h.afterByte_headerFirst hseq)
  · exact raise_inv _ (h.afterByte_headerFirst hseq)
  · exact afterByte_inv h hseq hend

theorem SequencerCase.inv (hs : SequencerCase c e s t) (h : s.Inv c) : t.Inv c := by
  cases hs with
  | idle _ => exact h
  | waits _ _ => exact h
  | command hseq _ hd ht => exact ht.inv h hseq hd
  | illegal _ _ _ => exact raise_inv _ h.headerFirst
  | stream hseq => exact streamEdge_inv h hseq

/-! ### The host's part, and the whole step -/

theorem HostCase.inv (ht : HostCase e busyBefore s t) (h : s.Inv c) (hidle : busyBefore = false → s.seq = .idle) : t.Inv c := by
  cases ht with
  | noWrite _ => exact h
  | dropped _ _ _ => exact drop_inv h
  | nop _ _ _ _ => exact h
  | accepted _ _ hb hd => exact accept_inv h (hidle hb) hd
  | status _ _ => exact statusWrite_inv h
  | plain _ _ _ _ _ => exact plainWrite_inv h

/-- Settles O54: each part of an edge keeps the invariant. A word is accepted only where the block was idle before the edge,
and there the sequencer has done nothing. -/
theorem everyStepKeepsTheInvariant : Obligations.EveryStepKeepsTheInvariant := by
  intro c s t h hstep
  rcases stepWith_cases hstep with ⟨_, rfl⟩ | ⟨_, s1, hseq, hhost⟩
  · exact resetEdge_inv c _ s
  · refine hhost.inv (present_inv (hseq.inv (beginEdge_inv h))) fun hb => ?_
    have hidle : s.seq = .idle := by simpa [State.busy] using hb
    rw [hseq.eq_of_idle hidle, present_seq, beginEdge_seq, hidle]

/-- Settles O43: the lanes of the invariant hold the generator's samples, so the offered byte is the generator's. -/
theorem offeredByteIsTheStreamByte : Obligations.OfferedByteIsTheStreamByte := by
  intro c s h _ hvalid
  have hbyte := offeredByte_eq fun l hl => (h.laneSamples l hl).1
  simp [State.ports, hvalid, hbyte, State.offeredLast]

end Sys2Proof.Machine
end

section
/-! What a command's execution and a step change: the frame, the sequencer, the snapshot, DROP, the results, the interrupt. -/

namespace Sys2Proof.Machine

open Sys2Proof

/-- Settles O16: the frame of the sequencer's part, and each result by the command that writes it; an error is never NONE, so it
excludes the success of that command. -/
theorem commandFrame : Obligations.CommandFrame := by
  intro i s t hexec
  have ht : ExecCase Config.device.sine s i t := execWith_cases ((execWith_device i s).trans hexec)
  obtain ⟨hie, hconf, hsnap, hdrop, hlast, hedges, hread, hclock⟩ := ht.frame
  obtain ⟨hprogress, htaken⟩ := ht.progress_taken
  have hsample := ht.sampleResult_cases
  have hpack := ht.packOut_cases
  have hheader := ht.header_cases
  refine ⟨hie, hconf, hsnap, hprogress, hdrop, hlast, htaken, hedges, hread, hclock, fun hi => ?_, fun hi => ?_,
    fun hh hs => ?_, fun _ herr hidle => ⟨?_, ?_, ?_⟩⟩
  · simpa [hi] using hsample
  · simpa [hi] using hpack
  · simpa [hh, hs] using hheader
  · simpa [herr] using hsample
  · simpa [herr] using hpack
  · simpa [herr, hidle] using hheader

/-- Settles O36: a BUSY block's next sequencer state is the sequencer's own doing, an idle block's the host's. -/
theorem sequencerTransitions : Obligations.SequencerTransitions := by
  intro c s t hrst hstep
  obtain ⟨s1, hs, hh⟩ := stepWith_parts hrst hstep
  have hidle (h : s.seq = .idle) : s1.seq = .idle := by simp [hs.eq_of_idle h, h]
  have hbusy (h : s.seq ≠ .idle) : t.seq = s1.seq := by
    rw [busy_eq_true h] at hh
    simpa using hh.of_busy.1
  refine ⟨fun h => ?_, fun h => ?_, fun h => ?_⟩
  · exact hh.seq_cases.imp (by simpa [hidle h] using ·) And.right
  · rw [hbusy (by simp [h])]
    simpa [h] using hs.seq_cases
  · rw [hbusy (by simp [h])]
    simpa [h] using hs.seq_cases

/-- Settles O37: neither the sequencer nor a host access to a BUSY block writes the snapshot. -/
theorem snapshotIsFixedWhileBusy : Obligations.SnapshotIsFixedWhileBusy := by
  intro c s t hrst hbusy hstep
  obtain ⟨s1, hs, hh⟩ := stepWith_parts hrst hstep
  rw [busy_eq_true hbusy] at hh
  rw [hh.of_busy.2.1, present_snap, hs.frame.snap, beginEdge_snap]

/-- Settles O39: the sequencer keeps DROP (`SequencerFrame`), so DROP is what the host's access leaves. -/
theorem dropFollowsItsTwoWrites : Obligations.DropFollowsItsTwoWrites := by
  intro c s t hrst hstep
  obtain ⟨s1, hs, hh⟩ := stepWith_parts hrst hstep
  have hdrop : s1.status.drop = s.status.drop := hs.frame.drop
  cases hh with
  | noWrite h =>
    split
    next w v ha => exact absurd ha (h w v)
    all_goals simpa using hdrop
  | dropped v h hb => simp [h, Status.dropped, show s.seq ≠ .idle by simpa [State.busy] using hb]
  | nop v h hb _ => simp [h, hdrop, busy_eq_false_iff.mp hb]
  | accepted v h hb _ => simp [h, hdrop, busy_eq_false_iff.mp hb, Status.accepted]
  | status v h => simp [h, hdrop, Status.hostWrite, Bool.and_comm]
  | plain w v h h1 h2 => simp only [h, h1, h2, false_and, if_false, plainWrite_status, present_status, hdrop]

/-- Settles O40: the host writes no result, so a change is the sequencer's, and the edge of a BUSY block keeps the command's
ERRCODE and the sequencer state to its end. -/
theorem resultsChangeOnlyByTheirCommands : Obligations.ResultsChangeOnlyByTheirCommands := by
  intro c s t hrst hstep
  obtain ⟨s1, hs, hh⟩ := stepWith_parts hrst hstep
  obtain ⟨hsample, hpack, hheader⟩ := hh.results
  have hend (h : s.seq = .exec) : t.status.errcode = s1.status.errcode ∧ t.seq = s1.seq := by
    rw [busy_eq_true (by simp [h])] at hh
    obtain ⟨hseq, _, herr⟩ := hh.of_busy
    exact ⟨by simpa using herr, by simpa using hseq⟩
  rw [hsample, hpack, hheader]
  simp only [present_sampleResult, present_packOut, present_header]
  refine ⟨fun hne => ?_, fun hne => ?_, fun hne => ?_⟩
  · obtain ⟨hexec, hd, herr⟩ := hs.sampleResult_cases.resolve_left hne
    exact ⟨hexec, hd, (hend hexec).1.trans herr⟩
  · obtain ⟨hexec, hd, herr⟩ := hs.packOut_cases.resolve_left hne
    exact ⟨hexec, hd, (hend hexec).1.trans herr⟩
  · obtain ⟨hexec, hd⟩ := hs.header_cases.resolve_left hne
    obtain ⟨herr, hseq⟩ := hend hexec
    rw [herr, hseq]
    exact ⟨hexec, hd⟩

/-- Settles O42: at an idle block the STATUS write meets no completion, and a CMD word that is not NOP is accepted. -/
theorem interruptFollowsDone : Obligations.InterruptFollowsDone := by
  refine ⟨fun _ _ => rfl, fun c s t v hrst hidle hstep haccess => ?_⟩
  obtain ⟨s1, _, hh⟩ := stepWith_parts hrst hstep
  rw [busy_eq_false_iff.mpr hidle] at hh
  suffices hdone : t.status.done = false by simp [State.irq, hdone]
  rcases haccess with ⟨ha, hv⟩ | ⟨ha, hv⟩
  · rw [hh.of_status_write ha, statusWrite_status, Status.hostWrite, hv]
    simp
  · rw [hh.of_cmd_write ha hv, accept_status, Status.accepted]

end Sys2Proof.Machine
end

section
/-! Two runs that differ in the configuration registers alone (R38): each part of an edge commutes with the difference. -/

namespace Sys2Proof.Machine

open Sys2Proof

/-- The state with other configuration registers: what the two runs of R38 differ in. -/
def State.withConf (k : ConfigRegs) (s : State) : State := { s with conf := k }

variable (k : ConfigRegs)

@[simp] theorem withConf_snap (s : State) : (s.withConf k).snap = s.snap := rfl
@[simp] theorem withConf_seq (s : State) : (s.withConf k).seq = s.seq := rfl
@[simp] theorem withConf_busy (s : State) : (s.withConf k).busy = s.busy := rfl
@[simp] theorem withConf_nextEdge (s : State) : (s.withConf k).nextEdge = s.nextEdge := rfl

/-- Every command's execution reads the snapshot, not the configuration (R38, R83). -/
theorem execWith_withConf (impl : SineImpl) (i : Instr) (s : State) :
    execWith impl i (s.withConf k) = andThen (execWith impl i s) fun t => .next (t.withConf k) := by
  cases i with
  | nop => rfl
  | sample =>
    simp only [execWith, execSampleWith, withConf_snap]
    by_cases h : s.snap.sr = 0
    · simp only [h, if_true]; rfl
    · simp only [h, if_false]; rfl
  | header =>
    simp only [execWith, exec, execHeader, withConf_snap]
    split <;> rfl
  | pack =>
    simp only [execWith, exec, execPack, withConf_snap]
    split <;> rfl
  | start =>
    simp only [execWith, exec, execStart, withConf_snap]
    split <;> rfl

theorem fillLane_withConf (c : Params) (i : Nat) (s : State) :
    fillLane c i (s.withConf k) = (fillLane c i s).withConf k := by
  rw [fillLane, fillLane, apply_ite (State.withConf k)]
  rfl

theorem laneWork_withConf (c : Params) (e : Edge) (s : State) :
    laneWork c e (s.withConf k) = (laneWork c e s).withConf k := by
  unfold laneWork
  split
  · exact fillLane_withConf ..
  · rfl

theorem afterByte_withConf (c : Params) (e : Edge) (s : State) :
    afterByte c e (s.withConf k) = (afterByte c e s).withConf k := by
  rw [afterByte, afterByte, ← laneWork_withConf, apply_ite (State.withConf k)]
  rfl

theorem streamEdge_withConf (c : Params) (e : Edge) (s : State) :
    streamEdge c e (s.withConf k) = (streamEdge c e s).withConf k := by
  rw [streamEdge_eq, streamEdge_eq, afterByte_withConf, apply_ite (State.withConf k), apply_ite (State.withConf k)]
  rfl

theorem sequencerEdge_withConf (c : Params) (e : Edge) (s : State) :
    sequencerEdge c (execWith c.sine) e (s.withConf k)
      = andThen (sequencerEdge c (execWith c.sine) e s) fun t => .next (t.withConf k) := by
  unfold sequencerEdge runCommand
  rw [withConf_seq, withConf_snap]
  split
  · rfl
  · split
    · split
      · exact execWith_withConf ..
      · rfl
    · rfl
  · rw [streamEdge_withConf]; rfl

theorem present_withConf (e : Edge) (s : State) : present e (s.withConf k) = (present e s).withConf k := by
  rw [present, present, apply_ite (State.withConf k)]
  rfl

theorem beginEdge_withConf {e : Edge} (ha : ∀ w, e.access ≠ .read w) (s : State) :
    beginEdge e (s.withConf k) = (beginEdge e s).withConf k := by
  have hread : readValue e (s.withConf k) = readValue e s := by
    unfold readValue
    split
    next w hw => exact absurd hw (ha w)
    next => rfl
    next => rfl
  rw [beginEdge, hread]
  rfl

theorem plainWrite_withConf (w : RegIndex) (v : Word) (s : State) :
    (plainWrite w v (s.withConf k)).withConf (plainWrite w v s).conf = plainWrite w v s := by
  unfold plainWrite
  split
  · rfl
  · rfl

/-- A host access to a BUSY block whose configuration differs leaves the same in every other register. -/
theorem hostWrite_withConf (impl : SineImpl) (e : Edge) (s t : State) (h : hostWrite (execWith impl) e true s = .next t) :
    ∃ t', hostWrite (execWith impl) e true (s.withConf k) = .next t' ∧ t'.withConf t.conf = t := by
  unfold hostWrite at h ⊢
  split at h
  next w v ha =>
    simp only [busWrite, command, reduceIte] at h ⊢
    split_ifs at h ⊢ with h1 h2
    · cases h; exact ⟨_, rfl, rfl⟩
    · cases h; exact ⟨_, rfl, rfl⟩
    · cases h; exact ⟨_, rfl, plainWrite_withConf ..⟩
  next => cases h; exact ⟨_, rfl, rfl⟩
  next => cases h; exact ⟨_, rfl, rfl⟩

/-- Settles O38: each part of the edge commutes with a change of the configuration. -/
theorem configurationDoesNotReachARunningCommand : Obligations.ConfigurationDoesNotReachARunningCommand := by
  intro c s t other hrst hbusy hread hstep
  have hstep' : andThen (sequencerEdge c (execWith c.sine) s.nextEdge (beginEdge s.nextEdge s)) (fun s1 =>
      hostWrite (execWith c.sine) s.nextEdge true (present s.nextEdge s1)) = .next t := by
    rw [stepWith, edgeStep, hrst, busy_eq_true hbusy] at hstep
    simpa using hstep
  obtain ⟨s1, hs, hh⟩ := andThen_eq_next hstep'
  obtain ⟨t', ht', heq⟩ := hostWrite_withConf other _ _ _ _ hh
  refine ⟨t', ?_, heq⟩
  change stepWith c (s.withConf other) = _
  rw [stepWith, edgeStep, withConf_nextEdge, withConf_busy, hrst, busy_eq_true hbusy, beginEdge_withConf other hread,
    sequencerEdge_withConf, hs]
  simpa [present_withConf] using ht'

end Sys2Proof.Machine
end

section
/-! The register window: the words, the STATUS fields, the header bytes in the window. -/

namespace Sys2Proof.Machine

open Sys2Proof

variable {s : State} {w : RegIndex}

/-- The byte of a word is a field of its bits (R9). -/
theorem byteOf_toNat_eq_extractLsb' (v : Word) (j : Nat) : byteOf v.toNat j = v.extractLsb' (8 * j) 8 := rfl

/-- Byte `j` of a header word, the least significant first, is byte `4k + j` of the header (R45). -/
theorem byteOf_headerWord (h : List Byte) (k : Nat) {j : Nat} (hj : j < 4) :
    byteOf (headerWord h k).toNat j = h.getD (4 * k + j) 0 := by
  rw [byteOf_toNat_eq_extractLsb', headerWord]
  interval_cases j
  · exact BitVec.extractLsb'_append_eq_right
  · rw [BitVec.extractLsb'_append_eq_of_le (by decide)]
    exact BitVec.extractLsb'_append_eq_right
  · iterate 2 rw [BitVec.extractLsb'_append_eq_of_le (by decide)]
    exact BitVec.extractLsb'_append_eq_right
  · iterate 3 rw [BitVec.extractLsb'_append_eq_of_le (by decide)]
    exact BitVec.extractLsb'_eq_self

/-- Settles O17: each word of the window is laid out little-endian. -/
theorem windowWordsHoldTheHeaderBytes : Obligations.WindowWordsHoldTheHeaderBytes := by
  refine fun n => ⟨headerBytes_length .., fun k hk j hj => ?_⟩
  rw [headerWindow, Vector.getElem_ofFn]
  exact byteOf_headerWord _ k hj

/-- From word 16 on the window is the header's, and the words past it read 0 (R45, R46). -/
theorem busRead_of_sixteen_le (s : State) (h : 16 ≤ w.toNat) : busRead s w = s.header[w.toNat - 16]?.getD 0 := by
  unfold busRead
  split
  case h_16 => rw [if_pos h]
  all_goals omega

theorem busRead_status (s : State) : busRead s 2 = s.status.toWord s.busy := rfl

/-! ### The fields of the STATUS word (R24–R29), counted from its low end -/

section
variable (busy : Bool) (st : Status)

theorem toWord_busy : (st.toWord busy).getLsbD 0 = busy := by
  rw [Status.toWord, BitVec.getLsbD_append]
  simp

theorem toWord_done : (st.toWord busy).getLsbD 1 = st.done := by
  rw [Status.toWord]
  iterate 2 rw [BitVec.getLsbD_append]
  simp

theorem toWord_drop : (st.toWord busy).getLsbD 2 = st.drop := by
  rw [Status.toWord]
  iterate 3 rw [BitVec.getLsbD_append]
  simp

theorem toWord_bit3 : (st.toWord busy).getLsbD 3 = false := by
  rw [Status.toWord]
  iterate 4 rw [BitVec.getLsbD_append]
  simp

theorem toWord_errcode : (st.toWord busy).extractLsb' 4 4 = st.errcode.num := by
  rw [Status.toWord]
  iterate 4 rw [BitVec.extractLsb'_append_eq_of_le (by decide)]
  exact BitVec.extractLsb'_append_eq_right

theorem toWord_errcause : (st.toWord busy).extractLsb' 8 4 = st.errcause.num := by
  rw [Status.toWord]
  iterate 5 rw [BitVec.extractLsb'_append_eq_of_le (by decide)]
  exact BitVec.extractLsb'_append_eq_right

theorem toWord_lastcmd : (st.toWord busy).extractLsb' 12 4 = st.lastcmd := by
  rw [Status.toWord]
  iterate 6 rw [BitVec.extractLsb'_append_eq_of_le (by decide)]
  exact BitVec.extractLsb'_append_eq_right

theorem toWord_high : (st.toWord busy).extractLsb' 16 16 = 0 := by
  rw [Status.toWord]
  iterate 7 rw [BitVec.extractLsb'_append_eq_of_le (by decide)]
  exact BitVec.extractLsb'_eq_self

end

theorem ErrCode.num_le (k : ErrCode) : k.num.toNat ≤ 4 := by cases k <;> decide

theorem ErrCause.num_le (k : ErrCause) : k.num.toNat ≤ 8 := by cases k <;> decide

/-- Settles O28: the words from 27 on lie past the eleven of the header. -/
theorem constantWordsAndBusy : Obligations.ConstantWordsAndBusy := by
  refine fun s => ⟨rfl, rfl, fun w hw => ?_, ?_⟩
  · rw [busRead_of_sixteen_le s (by omega), Vector.getElem?_eq_none (by omega)]
    rfl
  · rw [busRead_status, toWord_busy]
    simp [State.busy]

/-- Settles O29: field by field of the STATUS word. -/
theorem statusWordFields : Obligations.StatusWordFields := by
  intro s
  rw [busRead_status]
  exact ⟨toWord_done .., toWord_drop .., toWord_bit3 .., toWord_errcode .., toWord_errcause .., toWord_lastcmd ..,
    toWord_high .., ErrCode.num_le _, ErrCause.num_le _, rfl, rfl⟩

/-- Settles O58: a narrow register is extended by zeros, and header word `k` stands at word `16 + k`. -/
theorem everyWordReadsItsRegister : Obligations.EveryWordReadsItsRegister := by
  refine fun s => ⟨?_, rfl, rfl, rfl, ?_, rfl, rfl, rfl, rfl, rfl, rfl, rfl, ?_, fun k => ?_⟩
  · cases h : s.ie <;> simp [busRead, h]
  · exact BitVec.setWidth_eq_append (by decide)
  · exact BitVec.setWidth_eq_append (by decide)
  · have hk : (BitVec.ofNat 5 (16 + k)).toNat = 16 + k := by simp; omega
    rw [busRead_of_sixteen_le s (by omega), hk]
    simp

end Sys2Proof.Machine
end

section
/-! The host writes of the window (R62, R63): each register a word writes, and what the words read after. -/

namespace Sys2Proof.Machine

open Sys2Proof

variable {s : State} {v : Word} {w : RegIndex} {busy completion : Bool}

/-! ### Each register after a write: the value written at its own word, itself at any other -/

@[simp] theorem ConfigRegs.write_sampleRate (w : RegIndex) (v : Word) (k : ConfigRegs) :
    (k.write w v).sampleRate = if w.toNat = 3 then v else k.sampleRate := by unfold write; split <;> simp_all
@[simp] theorem ConfigRegs.write_bits (w : RegIndex) (v : Word) (k : ConfigRegs) :
    (k.write w v).bits = if w.toNat = 4 then v else k.bits := by unfold write; split <;> simp_all
@[simp] theorem ConfigRegs.write_freq (w : RegIndex) (v : Word) (k : ConfigRegs) :
    (k.write w v).freq = if w.toNat = 5 then v else k.freq := by unfold write; split <;> simp_all
@[simp] theorem ConfigRegs.write_amplitude (w : RegIndex) (v : Word) (k : ConfigRegs) :
    (k.write w v).amplitude = if w.toNat = 6 then v.extractLsb' 0 31 else k.amplitude := by unfold write; split <;> simp_all
@[simp] theorem ConfigRegs.write_numSamples (w : RegIndex) (v : Word) (k : ConfigRegs) :
    (k.write w v).numSamples = if w.toNat = 7 then v else k.numSamples := by unfold write; split <;> simp_all
@[simp] theorem ConfigRegs.write_sampleIndex (w : RegIndex) (v : Word) (k : ConfigRegs) :
    (k.write w v).sampleIndex = if w.toNat = 8 then v else k.sampleIndex := by unfold write; split <;> simp_all
@[simp] theorem ConfigRegs.write_packIn (w : RegIndex) (v : Word) (k : ConfigRegs) :
    (k.write w v).packIn = if w.toNat = 10 then v else k.packIn := by unfold write; split <;> simp_all

/-- The words outside 3 to 8 and 10 are no configuration registers. -/
theorem ConfigRegs.write_eq_self (h : w.toNat < 3 ∨ w.toNat = 9 ∨ 11 ≤ w.toNat) (v : Word) (k : ConfigRegs) :
    k.write w v = k := by
  unfold write
  split
  case h_8 => rfl
  all_goals omega

@[simp] theorem plainWrite_ie (w : RegIndex) (v : Word) (s : State) :
    (plainWrite w v s).ie = if w.toNat = 0 then v.getLsbD 0 else s.ie := by
  have hw : w = 0 ↔ w.toNat = 0 := BitVec.toNat_inj.symm
  rw [plainWrite, ← if_congr hw rfl rfl]
  split <;> rfl

/-- CTRL's own write changes no configuration register either, so this holds at every word. -/
@[simp] theorem plainWrite_conf (w : RegIndex) (v : Word) (s : State) : (plainWrite w v s).conf = s.conf.write w v := by
  unfold plainWrite
  split
  next h => exact (ConfigRegs.write_eq_self (by simp [h]) v _).symm
  next => rfl

/-- A write to any word but CMD and STATUS is a plain one (R62). -/
theorem busWrite_eq_plainWrite (h1 : w ≠ 1) (h2 : w ≠ 2) :
    busWrite exec busy completion w v s = .next (plainWrite w v s) := by
  rw [busWrite, if_neg h1, if_neg h2]

@[simp] theorem plainWrite_busy (w : RegIndex) (v : Word) (s : State) : (plainWrite w v s).busy = s.busy := by
  simp [State.busy]

/-- A plain write reaches one word of the window alone. -/
theorem busRead_plainWrite_of_ne {w' : RegIndex} (hne : w' ≠ w) (v : Word) (s : State) :
    busRead (plainWrite w v s) w' = busRead s w' := by
  have hne' : w.toNat ≠ w'.toNat := fun h => hne (BitVec.eq_of_toNat_eq h.symm)
  unfold busRead
  split <;> simp_all

/-- AMPLITUDE keeps bits 30:0 and reads 0 above them (R33). -/
theorem setWidth_extractLsb'_eq_and_mask (v : Word) : (v.extractLsb' 0 31).setWidth 32 = v &&& 0x7FFFFFFF := by
  apply BitVec.eq_of_toNat_eq
  rw [BitVec.toNat_and, show (0x7FFFFFFF : Word).toNat = 2 ^ 31 - 1 from rfl, Nat.and_two_pow_sub_one_eq_mod,
    BitVec.toNat_setWidth, BitVec.extractLsb'_toNat, Nat.shiftRight_zero]
  omega

/-- What a writable word reads after a write to it: the value, cut to the bits its register holds (R22, R33). -/
theorem busRead_plainWrite_same (hw : w = 0 ∨ w = 3 ∨ w = 4 ∨ w = 5 ∨ w = 6 ∨ w = 7 ∨ w = 8 ∨ w = 10) (v : Word) (s : State) :
    busRead (plainWrite w v s) w = if w = 0 then v &&& 1 else if w = 6 then v &&& 0x7FFFFFFF else v := by
  rcases hw with rfl | rfl | rfl | rfl | rfl | rfl | rfl | rfl
  · exact (BitVec.and_one_eq_setWidth_ofBool_getLsbD ..).symm
  · rfl
  · rfl
  · rfl
  · exact setWidth_extractLsb'_eq_and_mask v
  · rfl
  · rfl
  · rfl

/-- Settles O25: a writable word is neither CMD nor STATUS, so its write is a plain one. -/
theorem writeThenReadReturnsTheValue : Obligations.WriteThenReadReturnsTheValue := by
  intro s w v busy completion hw
  obtain ⟨h1, h2⟩ : w ≠ 1 ∧ w ≠ 2 := by rcases hw with rfl | rfl | rfl | rfl | rfl | rfl | rfl | rfl <;> decide
  refine ⟨plainWrite w v s, busWrite_eq_plainWrite h1 h2, busRead_plainWrite_same hw v s,
    fun w' hne => busRead_plainWrite_of_ne hne v s, plainWrite_seq .., plainWrite_snap .., plainWrite_progress ..,
    plainWrite_taken .., ?_⟩
  refine ⟨?_, ?_, ?_, ?_, ?_, ?_, ?_, ?_⟩ <;> (rintro rfl; rfl)

/-- Settles O26: a read-only or reserved word writes neither CTRL nor a configuration register. -/
theorem readOnlyWordsIgnoreWrites : Obligations.ReadOnlyWordsIgnoreWrites := by
  intro s w v busy completion hw
  have hne (n : RegIndex) (hn : n.toNat < 3) : w ≠ n := by rintro rfl; omega
  rw [busWrite_eq_plainWrite (hne 1 (by decide)) (hne 2 (by decide)), plainWrite, if_neg (hne 0 (by decide)),
    ConfigRegs.write_eq_self (.inr hw)]

/-- Settles O27: without a completion both flags are cleared by their own bit of the word. -/
theorem statusWriteClearsDoneAndDrop : Obligations.StatusWriteClearsDoneAndDrop := by
  intro s v busy
  have hclear (flag bit : Bool) : (flag && !bit) = if bit then false else flag := by cases bit <;> simp
  rw [← hclear, ← hclear, ← Bool.or_false (!v.getLsbD 1)]
  rfl

end Sys2Proof.Machine
end

section
/-! An edge taken apart (R73): without reset it is the sequencer's part, the offer, and the host's write. -/

namespace Sys2Proof.Machine

open Sys2Proof

variable {c : Params} {e : Edge} {s s1 : State} {v : Word} {w : RegIndex} {busyBefore : Bool}
variable {ex : Instr → State → Outcome State Fault Refusal}

theorem edgeStep_of_rst (hrst : e.rst = true) : edgeStep c ex e s = .next (resetEdge e s) := if_pos hrst

/-- Without reset an edge is the host's write on the state the sequencer leaves with its offer made. -/
theorem edgeStep_eq_hostWrite (hrst : e.rst = false) (hs : sequencerEdge c ex e (beginEdge e s) = .next s1) :
    edgeStep c ex e s = hostWrite ex e s.busy (present e s1) := by
  simp [edgeStep, hrst, hs]

theorem hostWrite_of_write (ha : e.access = .write w v) (s : State) :
    hostWrite ex e busyBefore s = busWrite ex busyBefore (busyBefore && !s.busy) w v s := by
  rw [hostWrite, ha]

theorem hostWrite_of_no_write (ha : ∀ w v, e.access ≠ .write w v) (s : State) : hostWrite ex e busyBefore s = .next s := by
  unfold hostWrite
  split
  next w v h => exact absurd h (ha w v)
  next => rfl
  next => rfl

/-- An edge with a host write reads nothing: there is one access to an edge (R64). -/
theorem beginEdge_of_write (ha : e.access = .write w v) (s : State) :
    beginEdge e s = { s with edges := s.edges.tail, readData := none, clock := s.clock + 1 } := by
  rw [beginEdge, readValue, ha]

/-- A byte is offered in STREAM alone (R190). -/
theorem present_of_ne_stream (h : s.seq ≠ .stream) : present e s = s := by
  simp [present, h]

theorem sequencerEdge_of_idle (h : s.seq = .idle) : sequencerEdge c ex e s = .next s := by
  rw [sequencerEdge, h]

/-- In EXEC the sequencer may wait (R183). -/
theorem sequencerEdge_of_wait (h : s.seq = .exec) (hgo : e.go = false) : sequencerEdge c ex e s = .next s := by
  simp [sequencerEdge, h, hgo]

/-- Settles O55: `present` is the offer made, and the idle block's sequencer does nothing. -/
theorem hostWriteOfAStepIsABusWrite : Obligations.HostWriteOfAStepIsABusWrite := by
  intro c s w v hrst ha
  have hstep {s1 : State} (hs : sequencerEdge c (execWith c.sine) s.nextEdge (beginEdge s.nextEdge s) = .next s1) :
      stepWith c s = busWrite exec s.busy (s.busy && !(present s.nextEdge s1).busy) w v (present s.nextEdge s1) := by
    rw [stepWith, edgeStep_eq_hostWrite hrst hs, hostWrite_of_write ha, busWrite_execWith]
  refine ⟨fun hidle => ?_, fun hbusy => ?_⟩
  · rw [hstep (sequencerEdge_of_idle hidle), present_of_ne_stream (by simp [hidle]), busy_eq_false_iff.mpr hidle,
      beginEdge_of_write ha]
    rfl
  · obtain ⟨s1, hs, _⟩ := sequencerEdge_spec c s.nextEdge (beginEdge s.nextEdge s)
    refine ⟨s1, beginEdge_of_write ha s ▸ hs, ?_⟩
    have hcompletion : (true && !(present s.nextEdge s1).busy) = decide (s1.seq = .idle) := by simp [State.busy]
    rw [hstep hs, busy_eq_true hbusy, hcompletion]
    rfl

/-- Settles O56: without a write the host's part is nothing, and an idle or waiting block's sequencer does nothing. -/
theorem stepWithoutAHostWrite : Obligations.StepWithoutAHostWrite := by
  intro c s hrst ha
  have hstep {s1 : State} (hs : sequencerEdge c (execWith c.sine) s.nextEdge (beginEdge s.nextEdge s) = .next s1) :
      stepWith c s = .next (present s.nextEdge s1) := by
    rw [stepWith, edgeStep_eq_hostWrite hrst hs, hostWrite_of_no_write ha]
  refine ⟨fun h => ⟨beginEdge s.nextEdge s, ?_, rfl⟩, fun _ => ?_⟩
  · rcases h with hidle | ⟨hexec, hgo⟩
    · rw [hstep (sequencerEdge_of_idle hidle), present_of_ne_stream (by simp [hidle])]
    · rw [hstep (sequencerEdge_of_wait hexec hgo), present_of_ne_stream (by simp [hexec])]
  · obtain ⟨s1, hs, _⟩ := sequencerEdge_spec c s.nextEdge (beginEdge s.nextEdge s)
    exact ⟨s1, hs, hstep hs⟩

/-- The sequencer looks at the sink in STREAM alone (R68). -/
theorem sequencerEdge_sink_of_ne_stream (h : s.seq ≠ .stream) (ready err : Bool) :
    sequencerEdge c ex { e with ready := ready, err := err } s = sequencerEdge c ex e s := by
  unfold sequencerEdge
  split
  next => rfl
  next => rfl
  next hstream => exact absurd hstream h

/-- Settles O48: no other part of an edge looks at the sink. -/
theorem sinkInputsAreIgnoredOutsideARun : Obligations.SinkInputsAreIgnoredOutsideARun := by
  intro c e ready err s h
  rcases Bool.eq_false_or_eq_true e.rst with hrst | hrst
  · exact (edgeStep_of_rst (e := { e with ready := ready, err := err }) hrst).trans (edgeStep_of_rst hrst).symm
  · obtain ⟨s1, hs, _⟩ := sequencerEdge_spec c e (beginEdge e s)
    have hs' : sequencerEdge c (execWith c.sine) { e with ready := ready, err := err } (beginEdge e s) = .next s1 :=
      (sequencerEdge_sink_of_ne_stream (s := beginEdge e s) h ready err).trans hs
    exact (edgeStep_eq_hostWrite (e := { e with ready := ready, err := err }) hrst hs').trans
      (edgeStep_eq_hostWrite hrst hs).symm

/-! ### The answer of a read (R61): no part of an edge depends on it -/

/-- The state with another answer kept: what two edges differ in, one with a host read and one without. -/
def State.withReadData (r : Option Word) (s : State) : State := { s with readData := r }

variable (r : Option Word)

@[simp] theorem withReadData_snap (s : State) : (s.withReadData r).snap = s.snap := rfl
@[simp] theorem withReadData_seq (s : State) : (s.withReadData r).seq = s.seq := rfl

theorem execWith_withReadData (impl : SineImpl) (i : Instr) (s : State) :
    execWith impl i (s.withReadData r) = andThen (execWith impl i s) fun t => .next (t.withReadData r) := by
  cases i with
  | nop => rfl
  | sample =>
    simp only [execWith, execSampleWith, withReadData_snap]
    rw [apply_ite (andThen · _)]
    rfl
  | start | header | pack =>
    simp only [execWith, exec, execStart, execHeader, execPack, withReadData_snap]
    split <;> rfl

theorem laneWork_withReadData (c : Params) (e : Edge) (s : State) :
    laneWork c e (s.withReadData r) = (laneWork c e s).withReadData r := by
  unfold laneWork
  split
  next i => rw [fillLane, fillLane, apply_ite (State.withReadData r)]; rfl
  next => rfl

theorem streamEdge_withReadData (c : Params) (e : Edge) (s : State) :
    streamEdge c e (s.withReadData r) = (streamEdge c e s).withReadData r := by
  have hafter : afterByte c e (s.withReadData r) = (afterByte c e s).withReadData r := by
    rw [afterByte, afterByte, ← laneWork_withReadData, apply_ite (State.withReadData r)]
    rfl
  rw [streamEdge_eq, streamEdge_eq, hafter, apply_ite (State.withReadData r), apply_ite (State.withReadData r)]
  rfl

theorem sequencerEdge_withReadData (c : Params) (e : Edge) (s : State) :
    sequencerEdge c (execWith c.sine) e (s.withReadData r)
      = andThen (sequencerEdge c (execWith c.sine) e s) fun t => .next (t.withReadData r) := by
  have hrun : runCommand (execWith c.sine) (s.withReadData r)
      = andThen (runCommand (execWith c.sine) s) fun t => .next (t.withReadData r) := by
    unfold runCommand
    rw [withReadData_snap]
    split
    next => exact execWith_withReadData ..
    next => rfl
  unfold sequencerEdge
  rw [withReadData_seq, hrun, streamEdge_withReadData]
  split
  next => rfl
  next => rw [apply_ite (andThen · _)]; rfl
  next => rfl

theorem present_withReadData (e : Edge) (s : State) : present e (s.withReadData r) = (present e s).withReadData r := by
  rw [present, present, apply_ite (State.withReadData r)]
  rfl

/-- Settles O30: the sequencer does not look at the host's access, and carries the answer along. -/
theorem readsHaveNoSideEffect : Obligations.ReadsHaveNoSideEffect := by
  intro c e w s hrst
  obtain ⟨s1, hs, hcase⟩ := sequencerEdge_spec c e (beginEdge { e with access := .read w } s)
  have hs' : sequencerEdge c (execWith c.sine) e (beginEdge { e with access := .idle } s) = .next (s1.withReadData none) :=
    (sequencerEdge_withReadData none c e (beginEdge { e with access := .read w } s)).trans (by rw [hs]; rfl)
  refine ⟨present e s1, edgeStep_eq_hostWrite hrst hs, ?_, ?_⟩
  · rw [present_readData, hcase.frame.readData]
    rfl
  · exact (edgeStep_eq_hostWrite (e := { e with access := .idle }) hrst hs').trans
      (congrArg _ (present_withReadData none e s1))

end Sys2Proof.Machine
end

section
/-! A byte on offer that nothing takes (R66, R67): each part of an edge keeps the offer. -/

namespace Sys2Proof.Machine

open Sys2Proof

variable {impl : SineImpl} {c : Params} {e : Edge} {s t u : State}

/-- From `s` to `t` the run goes on with the same byte on offer, if there was one, and with the same bytes at the sink. -/
structure OfferKept (impl : SineImpl) (s t : State) : Prop where
  seq : t.seq = s.seq
  snap : t.snap = s.snap
  progress : t.progress = s.progress
  taken : t.taken = s.taken
  offered : s.outValid = true → t.outValid = true
  sample : t.laneSample impl = s.laneSample impl

theorem OfferKept.trans (h : OfferKept impl s t) (h' : OfferKept impl t u) : OfferKept impl s u where
  seq := h'.seq.trans h.seq
  snap := h'.snap.trans h.snap
  progress := h'.progress.trans h.progress
  taken := h'.taken.trans h.taken
  offered := h'.offered ∘ h.offered
  sample := h'.sample.trans h.sample

/-- The byte and the end marker are functions of the position, the snapshot and the samples (R189, R190). -/
theorem OfferKept.ports_eq (h : OfferKept impl s t) (hvalid : s.outValid = true) :
    (t.ports impl).outValid = true ∧ (t.ports impl).outData = (s.ports impl).outData
      ∧ (t.ports impl).outLast = (s.ports impl).outLast := by
  have hpos : t.pos = s.pos := by rw [State.pos, State.pos, h.progress]
  simp [State.ports, State.offeredByte, State.offeredLast, hvalid, h.offered hvalid, h.sample, h.snap, hpos]

theorem laneSample_congr (hsnap : t.snap = s.snap) (hlanes : t.lanes = s.lanes) : t.laneSample impl = s.laneSample impl := by
  unfold State.laneSample
  rw [hsnap, hlanes]

/-- A lane that finishes a sample holds the generator's, of an index no lane held: every sample is as it was (R197). -/
theorem laneSample_fillLane (c : Params) (i : Nat) (s : State) :
    (fillLane c i s).laneSample c.sine = s.laneSample c.sine := by
  unfold fillLane
  split
  next h =>
    obtain ⟨_, _, _, hfresh⟩ := h
    funext j
    by_cases hj : i = j
    · subst hj
      have hnone : s.lanes.find? (fun l => l.index == i) = none := by simpa using hfresh
      simp [State.laneSample, hnone]
    · simp [State.laneSample, hj]
  next => rfl

theorem laneWork_offerKept (c : Params) (e : Edge) (s : State) : OfferKept c.sine s (laneWork c e s) where
  seq := laneWork_seq ..
  snap := laneWork_snap ..
  progress := laneWork_progress ..
  taken := laneWork_taken ..
  offered := by simp
  sample := by
    unfold laneWork
    split
    · exact laneSample_fillLane ..
    · rfl

theorem beginEdge_offerKept (e : Edge) (s : State) : OfferKept impl s (beginEdge e s) := ⟨rfl, rfl, rfl, rfl, id, rfl⟩

theorem present_offerKept (e : Edge) (s : State) : OfferKept impl s (present e s) where
  seq := present_seq ..
  snap := present_snap ..
  progress := present_progress ..
  taken := present_taken ..
  offered h := by
    unfold present
    split
    · rfl
    · exact h
  sample := laneSample_congr (present_snap ..) (present_lanes ..)

/-- Where no byte is taken and the sink does not fail, an edge of a run is the lanes' work (R191–R193). -/
theorem streamEdge_of_not_taken (htakes : takes e s = false) (herr : e.err = false) : streamEdge c e s = laneWork c e s := by
  simp [streamEdge_eq, afterByte, htakes, herr]

/-- The host of a BUSY block reaches the registers and the flags, not the run (R182, R198). -/
theorem HostCase.offerKept (ht : HostCase e true s t) : OfferKept impl s t := by
  cases ht with
  | noWrite _ | dropped _ _ _ | status _ _ => exact ⟨rfl, rfl, rfl, rfl, id, rfl⟩
  | nop _ _ hb _ | accepted _ _ hb _ => cases hb
  | plain w v _ _ _ =>
    exact ⟨plainWrite_seq .., plainWrite_snap .., plainWrite_progress .., plainWrite_taken .., by simp,
      laneSample_congr (plainWrite_snap ..) (plainWrite_lanes ..)⟩

/-- Settles O44: the sequencer's part is the lanes' work, which keeps the offer as every other part of the edge does. -/
theorem offerIsStableUntilTaken : Obligations.OfferIsStableUntilTaken := by
  intro c s hrst herr hready hseq hvalid
  obtain ⟨t, hstep, _⟩ := edgeStep_spec c s.nextEdge s
  obtain ⟨s1, hs, hh⟩ := stepWith_parts hrst hstep
  have hs1 : s1 = laneWork c s.nextEdge (beginEdge s.nextEdge s) := by
    cases hs with
    | stream _ => exact streamEdge_of_not_taken (by simp [takes, hready]) herr
    | idle h | waits h _ | command h _ _ _ | illegal h _ _ => simp [hseq] at h
  rw [busy_eq_true (by simp [hseq])] at hh
  have hkept : OfferKept c.sine s t := by
    have hbegin : OfferKept c.sine s (beginEdge s.nextEdge s) := beginEdge_offerKept ..
    have hlanes : OfferKept c.sine s s1 := hs1 ▸ hbegin.trans (laneWork_offerKept ..)
    exact (hlanes.trans (present_offerKept ..)).trans hh.offerKept
  obtain ⟨houtValid, houtData, houtLast⟩ := hkept.ports_eq hvalid
  exact ⟨t, hstep, hkept.seq.trans hseq, houtValid, houtData, houtLast, hkept.progress, hkept.taken⟩

end Sys2Proof.Machine
end

section
/-! The CMD word (R80–R82): its two fields, and the decoder against the encoder. -/

namespace Sys2Proof

variable {i : Instr} {v : Word}

/-- A word is its field `rsv` above its field `op` (R80). -/
theorem rsvField_append_opField (v : Word) : rsvField v ++ opField v = v :=
  (BitVec.extractLsb'_append_extractLsb'_eq_extractLsb' (by decide)).trans BitVec.extractLsb'_eq_self

theorem decodeOp_eq_command_iff (op : BitVec 4) (i : Instr) : decodeOp op = .command i ↔ op = i.opcode := by
  cases i <;> (revert op; decide)

theorem decodeOp_eq_illegal_iff (op : BitVec 4) (why : IllegalWord) :
    decodeOp op = .illegal why ↔ why = .reservedOpcode ∧ 5 ≤ op.toNat := by
  cases why <;> (revert op; decide)

theorem decode_of_rsvField_ne_zero (h : rsvField v ≠ 0) : decode v = .illegal .reservedBits := if_pos h

theorem decode_of_rsvField_eq_zero (h : rsvField v = 0) : decode v = decodeOp (opField v) := if_neg (not_not.mpr h)

theorem decode_encode (i : Instr) : decode (encode i) = .command i := by
  have hround : Laws.RoundTrip.Statement i := by
    cases i
    exacts [Laws.RoundTrip.nop, Laws.RoundTrip.start, Laws.RoundTrip.sample, Laws.RoundTrip.header, Laws.RoundTrip.pack]
  obtain ⟨_, _, _, hdecode⟩ := hround
  exact hdecode

/-- A word that decodes to a command has no reserved bit set and the command's opcode, so it is the command's encoding. -/
theorem decode_eq_command_iff : decode v = .command i ↔ v = encode i := by
  refine ⟨fun h => ?_, fun h => h ▸ decode_encode i⟩
  by_cases hrsv : rsvField v = 0
  · rw [decode_of_rsvField_eq_zero hrsv, decodeOp_eq_command_iff] at h
    rw [encode, ← h, ← hrsv, rsvField_append_opField]
  · rw [decode_of_rsvField_ne_zero hrsv] at h
    cases h

theorem decode_eq_illegal_iff : (∃ why, decode v = .illegal why) ↔ rsvField v ≠ 0 ∨ 5 ≤ (opField v).toNat := by
  by_cases hrsv : rsvField v = 0
  · simp [decode_of_rsvField_eq_zero hrsv, decodeOp_eq_illegal_iff, hrsv]
  · exact iff_of_true ⟨_, decode_of_rsvField_ne_zero hrsv⟩ (.inl hrsv)

/-- Settles O3: every command is well formed, so the decoder's equivalence needs no premise. -/
theorem decodeEncodeAgree : Obligations.DecodeEncodeAgree := fun _ _ _ => decode_eq_command_iff

/-- Settles O2: the word of each command is its encoding, and the fields of R81 are `rsvField` and `opField`. -/
theorem decodeIsTotalAndExact : Obligations.DecodeIsTotalAndExact := fun _ =>
  ⟨decode_eq_command_iff, decode_eq_command_iff, decode_eq_command_iff, decode_eq_command_iff, decode_eq_command_iff,
    decode_eq_illegal_iff⟩

/-- Settles O1: the commands' words are their encodings, two illegal words have a reserved opcode, two a reserved bit. -/
theorem decodeOfTableWords : Obligations.DecodeOfTableWords :=
  ⟨decode_encode .nop, decode_encode .start, decode_encode .sample, decode_encode .header, decode_encode .pack,
    rfl, rfl, decode_of_rsvField_ne_zero (by decide), decode_of_rsvField_ne_zero (by decide)⟩

end Sys2Proof
end

section
/-! Host programs as text (R85, R86): the words their names stand for, and the listing of their lines. -/

namespace Sys2Proof.Machine

open Sys2Proof

theorem refIndex_hdr_toNat (k : Fin 11) : (refIndex (.name (.hdr k))).toNat = 16 + k :=
  Nat.mod_eq_of_lt (by omega)

theorem refIndex_index_toNat {w : Nat} (hw : w < 32) : (refIndex (.index w)).toNat = w :=
  Nat.mod_eq_of_lt hw

theorem listing_expand (op : HostOp) : listing (expand op) = listing op := by
  rw [listing, listing, expand_expand]

/-- Settles O4: the expansions and triples stand in the definitions, and a listing reads an operation through its expansion. -/
theorem pseudoInstructionsExpand : Obligations.PseudoInstructionsExpand :=
  ⟨rfl, rfl, rfl, rfl, rfl, rfl, rfl, fun _ _ => rfl, fun _ _ => rfl, fun _ _ _ => ⟨rfl, rfl⟩, rfl, rfl,
    fun op => (listing_expand op).symm, rfl, refIndex_hdr_toNat, fun _ => refIndex_index_toNat⟩

end Sys2Proof.Machine
end

section
/-! The lines of a host program (R85, R86), cycle by cycle: what the first cycle of a line leaves for the rest of it. -/

namespace Sys2Proof.Machine

open Sys2Proof

variable {c : Params} {timing : Nat → Edge} {op : HostOp} {s t u : State} {fuel : Nat}
variable {a : HostAccess} {ready err : Bool} {w : RegIndex} {r : RegRef}

/-- The state with one more edge to come, before the others. -/
def State.withEdge (e : Edge) (s : State) : State := { s with edges := e :: s.edges }

/-- The edge of one cycle of a line: the host and the sink do what the line says, the sequencer what the timing says. -/
def cycleEdge (timing : Nat → Edge) (a : HostAccess) (ready err : Bool) (s : State) : Edge :=
  { timing s.clock with rst := false, access := a, ready := ready, err := err }

/-- One cycle of a line is one edge (log 15). -/
def hostCycle (c : Params) (timing : Nat → Edge) (a : HostAccess) (ready err : Bool) (s : State) : Outcome State Fault Refusal :=
  stepWith c (s.withEdge (cycleEdge timing a ready err s))

theorem hostCycle_next (c : Params) (timing : Nat → Edge) (a : HostAccess) (ready err : Bool) (s : State) :
    ∃ u, hostCycle c timing a ready err s = .next u := by
  obtain ⟨u, hu, _⟩ := edgeStep_spec c (cycleEdge timing a ready err s) (s.withEdge (cycleEdge timing a ready err s))
  exact ⟨u, hu⟩

/-- A cycle's read returns the word as it stood before the cycle (R61, R64). -/
theorem hostCycle_readData (h : hostCycle c timing (.read w) ready err s = .next t) : t.readData = some (busRead s w) :=
  stepWith_readData rfl h

/-- A cycle takes one byte or none (R66). -/
theorem hostCycle_taken (h : hostCycle c timing a ready err s = .next t) :
    t.taken = s.taken ∨ t.taken.length = s.taken.length + 1 :=
  stepWith_taken (s := s.withEdge _) rfl h

/-! ### An operation runs as its expansion does (R86) -/

theorem hostEdge_expand (timing : Nat → Edge) (op : HostOp) (s : State) :
    hostEdge timing (expand op) s = hostEdge timing op s := by
  simp only [hostEdge, hostAccess, expand_expand]

theorem readMeets_expand (op : HostOp) : readMeets (expand op) = readMeets op := by
  funext v
  simp only [readMeets, expand_expand]

theorem opDone_expand (op : HostOp) (s t : State) : opDone (expand op) s t = opDone op s t := by
  simp only [opDone, expand_expand, readMeets_expand]

theorem runOp_expand (c : Params) (timing : Nat → Edge) (fuel : Nat) (op : HostOp) (s : State) :
    runOp c timing fuel (expand op) s = runOp c timing fuel op s := by
  have hdrive : drive c timing (expand op) s fuel s = drive c timing op s fuel s :=
    drive_congr (hostEdge_expand timing op) (opDone_expand op s)
  simp only [runOp, expand_expand, hdrive, readMeets_expand]

/-! ### Lines of one cycle -/

/-- Every line but `SINK 0` is driven, and its last read must be the one it expects. -/
theorem runOp_eq_drive (hop : expand op ≠ .sink 0) :
    runOp c timing fuel op s = (drive c timing op s fuel s).filter fun t => t.readData.all (readMeets op) := by
  unfold runOp
  split
  next h => exact absurd h hop
  all_goals rfl

theorem runOp_one_cycle (hop : expand op ≠ .sink 0) (hdone : ∀ u, opDone op s u = true) :
    runOp c timing (fuel + 1) op s = some t ↔
      stepWith c (s.withEdge (hostEdge timing op s)) = .next t ∧ t.readData.all (readMeets op) = true := by
  rw [runOp_eq_drive hop, Option.filter_eq_some_iff, drive_one hdone, State.withEdge]

theorem runOp_wr {v : Nat} : runOp c timing (fuel + 1) (.wr r v) s = some t ↔
    hostCycle c timing (.write (refIndex r) (BitVec.ofNat 32 v)) false false s = .next t :=
  (runOp_one_cycle (by simp [expand]) fun _ => rfl).trans (and_iff_left Option.all_true)

theorem runOp_sinkErr : runOp c timing (fuel + 1) .sinkErr s = some t ↔ hostCycle c timing .idle false true s = .next t :=
  (runOp_one_cycle (by simp [expand]) fun _ => rfl).trans (and_iff_left Option.all_true)

theorem runOp_rd {o : Option Nat} : runOp c timing (fuel + 1) (.rd r o) s = some t ↔
    hostCycle c timing (.read (refIndex r)) false false s = .next t ∧ readMeets (.rd r o) (busRead s (refIndex r)) = true := by
  refine (runOp_one_cycle (by simp [expand]) fun _ => rfl).trans (and_congr_right fun h => ?_)
  rw [hostCycle_readData h, Option.all_some]

/-! ### Lines of any number of cycles -/

theorem drive_of_step (hu : stepWith c (t.withEdge (hostEdge timing op t)) = .next u) :
    drive c timing op s (fuel + 1) t = if opDone op s u then some u else drive c timing op s fuel u := by
  rw [State.withEdge] at hu
  rw [drive, hu]

theorem runOp_of_done (hop : expand op ≠ .sink 0) (hu : stepWith c (s.withEdge (hostEdge timing op s)) = .next u)
    (hdone : opDone op s u = true) (hmeets : u.readData.all (readMeets op) = true) :
    runOp c timing (fuel + 1) op s = some u := by
  rw [runOp_eq_drive hop, drive_of_step hu, if_pos hdone, Option.filter_some, if_pos hmeets]

/-- A line that is not over goes on as any line with the same edges that is over in the same states. -/
theorem runOp_of_not_done {op' : HostOp} (hop : expand op ≠ .sink 0) (hop' : expand op' ≠ .sink 0)
    (hu : stepWith c (s.withEdge (hostEdge timing op s)) = .next u) (hdone : opDone op s u = false)
    (hedge : hostEdge timing op = hostEdge timing op') (hover : opDone op s = opDone op' u)
    (hmeets : readMeets op = readMeets op') : runOp c timing (fuel + 1) op s = runOp c timing fuel op' u := by
  rw [runOp_eq_drive hop, runOp_eq_drive hop', drive_of_step hu, hdone, drive_congr (congrFun hedge) (congrFun hover), hmeets]
  rfl

/-- POLL reads, and goes on as the same POLL until the value read meets its mask (R85). -/
theorem runOp_poll_of_cycle {m x : Nat} (hu : hostCycle c timing (.read (refIndex r)) false false s = .next u) :
    runOp c timing (fuel + 1) (.poll r m x) s =
      if busRead s (refIndex r) &&& BitVec.ofNat 32 m = BitVec.ofNat 32 x then some u
      else runOp c timing fuel (.poll r m x) u := by
  have hpoll : expand (.poll r m x) ≠ .sink 0 := by simp [expand]
  have hmeets : u.readData.all (readMeets (.poll r m x))
      = decide (busRead s (refIndex r) &&& BitVec.ofNat 32 m = BitVec.ofNat 32 x) := by
    rw [hostCycle_readData hu]
    rfl
  split
  next h => exact runOp_of_done hpoll hu (hmeets.trans (decide_eq_true h)) (hmeets.trans (decide_eq_true h))
  next h => exact runOp_of_not_done hpoll hpoll hu (hmeets.trans (decide_eq_false h)) rfl rfl rfl

theorem runOp_poll_succ {m x : Nat} : runOp c timing (fuel + 1) (.poll r m x) s = some t ↔
    ∃ u, hostCycle c timing (.read (refIndex r)) false false s = .next u ∧ u.readData = some (busRead s (refIndex r))
      ∧ if busRead s (refIndex r) &&& BitVec.ofNat 32 m = BitVec.ofNat 32 x then t = u
        else runOp c timing fuel (.poll r m x) u = some t := by
  obtain ⟨u, hu⟩ := hostCycle_next c timing (.read (refIndex r)) false false s
  rw [runOp_poll_of_cycle hu, hu]
  simp only [Host.Outcome.next.injEq, exists_eq_left', hostCycle_readData hu, true_and]
  split
  next => exact Option.some_inj.trans eq_comm
  next => rfl

theorem runOp_sink_zero : runOp c timing fuel (.sink 0) s = some s := rfl

theorem runOp_sink_taken {n : Nat} (h : runOp c timing fuel (.sink n) s = some t) : t.taken.length = s.taken.length + n := by
  cases n with
  | zero => cases h; rfl
  | succ n =>
    rw [runOp_eq_drive (by simp [expand]), Option.filter_eq_some_iff] at h
    exact beq_iff_eq.mp (drive_eq_some h.1).1

theorem opDone_sink (n : Nat) (s u : State) : opDone (.sink n) s u = (u.taken.length == s.taken.length + n) := rfl

/-- A SINK has one byte fewer to take after a cycle that takes one, and is over when it has none (R85). -/
theorem runOp_sink_of_cycle {n : Nat} (hu : hostCycle c timing .idle true false s = .next u) :
    runOp c timing (fuel + 1) (.sink (n + 1)) s =
      if u.taken.length = s.taken.length + 1 then runOp c timing fuel (.sink n) u
      else runOp c timing fuel (.sink (n + 1)) u := by
  have hsink (m : Nat) : expand (.sink (m + 1)) ≠ .sink 0 := by simp [expand]
  split
  next htaken =>
    cases n with
    | zero => exact runOp_of_done (hsink 0) hu (by simp [opDone_sink, htaken]) Option.all_true
    | succ n =>
      refine runOp_of_not_done (hsink _) (hsink n) hu (by simp [opDone_sink, htaken]) rfl ?_ rfl
      funext v
      rw [opDone_sink, opDone_sink, show u.taken.length + (n + 1) = s.taken.length + (n + 1 + 1) by omega]
  next hnone =>
    have htaken : u.taken = s.taken := (hostCycle_taken hu).resolve_right hnone
    refine runOp_of_not_done (hsink n) (hsink n) hu (by simp [opDone_sink, htaken]) rfl ?_ rfl
    funext v
    rw [opDone_sink, opDone_sink, htaken]

theorem runOp_sink_succ {n : Nat} : runOp c timing (fuel + 1) (.sink (n + 1)) s = some t ↔
    ∃ u, hostCycle c timing .idle true false s = .next u
      ∧ if u.taken.length = s.taken.length + 1 then runOp c timing fuel (.sink n) u = some t
        else u.taken = s.taken ∧ runOp c timing fuel (.sink (n + 1)) u = some t := by
  obtain ⟨u, hu⟩ := hostCycle_next c timing .idle true false s
  rw [runOp_sink_of_cycle hu, hu]
  simp only [Host.Outcome.next.injEq, exists_eq_left']
  split
  next => rfl
  next hnone => exact (and_iff_right ((hostCycle_taken hu).resolve_right hnone)).symm

/-- CMD is the write of the command's word to CMD (R86). -/
theorem runOp_cmd {i : Instr} : runOp c timing (fuel + 1) (.cmd i) s = some t ↔
    hostCycle c timing (.write 1 (encode i)) false false s = .next t := by
  rw [← runOp_expand]
  refine runOp_wr.trans ?_
  rw [BitVec.ofNat_toNat, BitVec.setWidth_eq]
  rfl

/-- ACK is the write that clears DONE and DROP (R86, R63). -/
theorem runOp_ack : runOp c timing (fuel + 1) .ack s = some t ↔
    hostCycle c timing (.write 2 0x00000006) false false s = .next t := by
  rw [← runOp_expand]
  exact runOp_wr

theorem runProgram_cons {ops : List HostOp} : runProgram c timing fuel (op :: ops) s = some t ↔
    ∃ u, runOp c timing fuel op s = some u ∧ runProgram c timing fuel ops u = some t :=
  Option.bind_eq_some_iff

/-- Settles O57: lines of one cycle by `runOp_one_cycle`, POLL and SINK by what their first cycle leaves, the
pseudo-instructions by their expansions. -/
theorem hostOperationsDoWhatTheirLinesSay : Obligations.HostOperationsDoWhatTheirLinesSay := by
  intro c timing fuel s t _
  exact ⟨fun _ _ => runOp_wr, fun _ => runOp_rd.trans (and_iff_left rfl),
    fun _ _ => runOp_rd.trans (and_congr_right fun _ => beq_iff_eq), fun _ _ h => hostCycle_readData (runOp_rd.mp h).1,
    fun _ _ _ => ⟨rfl, runOp_poll_succ⟩, fun _ => ⟨rfl, rfl, runOp_sink_succ, runOp_sink_taken⟩, runOp_sinkErr,
    fun _ => runOp_cmd, runOp_ack, (runOp_expand c timing fuel .wait s).symm,
    fun op => (runOp_expand c timing fuel op s).symm, rfl, fun _ _ => runProgram_cons⟩

end Sys2Proof.Machine
end

section
/-! Lines that end (R85): a SINK of the bytes left of a run, and WAIT after the execution step. -/

namespace Sys2Proof.Machine

open Sys2Proof

variable {impl : SineImpl} {c : Params} {timing : Nat → Edge} {i : Instr} {e : Edge} {s t u : State}
variable {a : HostAccess} {ready err : Bool} {fuel : Nat}

/-! ### A cycle without a write: the sequencer's part and its offer -/

/-- A line's cycle as the sequencer finds it: the edge is consumed and its read answered. -/
def cycleStart (e : Edge) (s : State) : State := beginEdge e (s.withEdge e)

@[simp] theorem cycleStart_seq : (cycleStart e s).seq = s.seq := rfl
@[simp] theorem cycleStart_snap : (cycleStart e s).snap = s.snap := rfl
@[simp] theorem cycleStart_status : (cycleStart e s).status = s.status := rfl
@[simp] theorem cycleStart_taken : (cycleStart e s).taken = s.taken := rfl
@[simp] theorem cycleStart_outValid : (cycleStart e s).outValid = s.outValid := rfl
@[simp] theorem cycleStart_offeredLast : (cycleStart e s).offeredLast = s.offeredLast := rfl

theorem cycleStart_inv (h : s.Inv c) : (cycleStart e s).Inv c := { h with }

theorem hostCycle_without_write (ha : ∀ w v, a ≠ .write w v) (hu : hostCycle c timing a ready err s = .next u) :
    ∃ s1, SequencerCase c (cycleEdge timing a ready err s) (cycleStart (cycleEdge timing a ready err s) s) s1
      ∧ u = present (cycleEdge timing a ready err s) s1 := by
  obtain ⟨s1, hs, hh⟩ := stepWith_parts (s := s.withEdge _) rfl hu
  refine ⟨s1, hs, ?_⟩
  cases hh with
  | noWrite _ => rfl
  | dropped v h _ | nop v h _ _ | accepted v h _ _ | status v h | plain _ v h _ _ => exact absurd h (ha _ v)

/-! ### SINK in a run -/

theorem SequencerCase.eq_of_stream (hs : SequencerCase c e s t) (hseq : s.seq = .stream) : t = streamEdge c e s := by
  cases hs with
  | stream _ => rfl
  | idle h | waits h _ | command h _ _ _ | illegal h _ _ => simp [hseq] at h

/-- The state of a run at a sink's cycle, with the byte on offer taken and the end of the run not yet looked for. -/
def afterSink (c : Params) (e : Edge) (s : State) : State := laneWork c e (takeByte c.sine (cycleStart e s))

@[simp] theorem afterSink_seq : (afterSink c e s).seq = s.seq := by simp [afterSink]
@[simp] theorem afterSink_snap : (afterSink c e s).snap = s.snap := by simp [afterSink]
@[simp] theorem afterSink_taken_length : (afterSink c e s).taken.length = s.taken.length + 1 := by simp [afterSink]

theorem afterSink_pos (h : s.Inv c) (hseq : s.seq = .stream) : (afterSink c e s).pos = s.pos + 1 := by
  have htaken : (takeByte c.sine (cycleStart e s)).pos = s.pos + 1 := ((cycleStart_inv h).takeByte_pos hseq).1
  rwa [afterSink, State.pos, laneWork_progress]

/-- A sink's cycle of a run with a byte on offer takes it, and ends the run where it was the last (R192). -/
theorem sinkCycle_eq (hseq : s.seq = .stream) (hvalid : s.outValid = true)
    (hu : hostCycle c timing .idle true false s = .next u) :
    ∃ e, e.offer = (timing s.clock).offer
      ∧ u = present e (if s.offeredLast then raise .none (afterSink c e s) else afterSink c e s) := by
  obtain ⟨s1, hs, rfl⟩ := hostCycle_without_write (by simp) hu
  refine ⟨cycleEdge timing .idle true false s, rfl, ?_⟩
  have htakes : takes (cycleEdge timing .idle true false s) (cycleStart (cycleEdge timing .idle true false s) s) = true := by
    simp [takes, cycleEdge, hvalid]
  rw [hs.eq_of_stream hseq, streamEdge_eq, afterByte, htakes]
  simp [cycleEdge, afterSink]

theorem sinkCycle_of_last (hseq : s.seq = .stream) (hvalid : s.outValid = true) (hlast : s.offeredLast = true)
    (hu : hostCycle c timing .idle true false s = .next u) :
    u.seq = .idle ∧ u.taken.length = s.taken.length + 1 := by
  obtain ⟨e, _, rfl⟩ := sinkCycle_eq hseq hvalid hu
  simp [hlast, raise]

theorem sinkCycle_of_not_last (hseq : s.seq = .stream) (hvalid : s.outValid = true) (hlast : s.offeredLast = false)
    (h : s.Inv c) (hoffer : (timing s.clock).offer = true) (hu : hostCycle c timing .idle true false s = .next u) :
    u.seq = .stream ∧ u.outValid = true ∧ u.snap = s.snap ∧ u.pos = s.pos + 1 ∧ u.taken.length = s.taken.length + 1 := by
  obtain ⟨e, he, rfl⟩ := sinkCycle_eq hseq hvalid hu
  rw [hlast, State.pos, present_progress, ← State.pos]
  refine ⟨by simpa using hseq, ?_, by simp, afterSink_pos h hseq, by simp⟩
  simp [present, hseq, he, hoffer]

theorem hostCycle_inv (h : s.Inv c) (hu : hostCycle c timing a ready err s = .next u) : u.Inv c :=
  everyStepKeepsTheInvariant c (s.withEdge _) u { h with } hu

/-- Every cycle of a SINK takes a byte where each is offered at once, and the last byte of the run ends it. -/
theorem runOp_sink_ends (htiming : ∀ k, (timing k).offer = true) (n : Nat) (h : s.Inv c) (hseq : s.seq = .stream)
    (hvalid : s.outValid = true) (hn : n ≤ s.snap.L - s.pos) :
    ∃ t, runOp c timing n (.sink n) s = some t ∧ (t.seq = .idle ↔ n = s.snap.L - s.pos) := by
  have hpos := h.position hseq
  induction n generalizing s with
  | zero => exact ⟨s, runOp_sink_zero, iff_of_false (by simp [hseq]) (by omega)⟩
  | succ n ih =>
    obtain ⟨u, hu⟩ := hostCycle_next c timing .idle true false s
    have hlast : s.offeredLast = decide (s.pos = s.snap.L - 1) := rfl
    by_cases hend : s.pos = s.snap.L - 1
    · obtain ⟨hidle, htaken⟩ := sinkCycle_of_last hseq hvalid (hlast.trans (decide_eq_true hend)) hu
      obtain rfl : n = 0 := by omega
      exact ⟨u, by rw [runOp_sink_of_cycle hu, if_pos htaken, runOp_sink_zero], iff_of_true hidle (by omega)⟩
    · obtain ⟨hstream, hoffered, hsnap, hnext, htaken⟩ :=
        sinkCycle_of_not_last hseq hvalid (hlast.trans (decide_eq_false hend)) h (htiming _) hu
      have hinv := hostCycle_inv h hu
      obtain ⟨t, ht, hidle⟩ := ih hinv hstream hoffered (by rw [hsnap, hnext]; omega) (hinv.position hstream)
      rw [hsnap, hnext] at hidle
      exact ⟨t, by rw [runOp_sink_of_cycle hu, if_pos htaken, ht], hidle.trans (by omega)⟩

/-! ### WAIT -/

/-- BUSY is bit 0 of STATUS, so WAIT's mask reads 0 at an idle block alone (R24, R86). -/
theorem busRead_status_and_one_eq_zero_iff : busRead s 2 &&& 1#32 = 0#32 ↔ s.seq = .idle := by
  rw [BitVec.and_one_eq_setWidth_ofBool_getLsbD, busRead_status, toWord_busy, ← busy_eq_false_iff]
  cases s.busy <;> decide

/-- WAIT reads STATUS, and goes on until the block was idle before the read (R86). -/
theorem runOp_wait_of_cycle (hu : hostCycle c timing (.read 2) false false s = .next u) :
    runOp c timing (fuel + 1) .wait s = if s.seq = .idle then some u else runOp c timing fuel .wait u := by
  have hpoll (fuel : Nat) (s : State) :
      runOp c timing fuel .wait s = runOp c timing fuel (.poll (.name .status) 0x1 0x0) s :=
    (runOp_expand c timing fuel .wait s).symm
  rw [hpoll, hpoll, runOp_poll_of_cycle (r := .name .status) hu]
  exact if_congr busRead_status_and_one_eq_zero_iff rfl rfl

/-- Every accepted command but START ends with its execution step (R183). -/
theorem ExecCase.completes (ht : ExecCase impl s i t) (hnop : i ≠ .nop) (hstart : i ≠ .start) :
    t.seq = .idle ∧ t.status.done = true := by
  cases ht with
  | nop => exact absurd rfl hnop
  | start _ => exact absurd rfl hstart
  | failed _ _ _ | sample _ | header | pack => exact ⟨rfl, rfl⟩

theorem SequencerCase.completes (hs : SequencerCase c e s t) (hseq : s.seq = .exec) (hgo : e.go = true)
    (hnop : decode s.snap.word ≠ .command .nop) (hstart : decode s.snap.word ≠ .command .start) :
    t.seq = .idle ∧ t.status.done = true := by
  cases hs with
  | command _ _ hd ht => exact ht.completes (fun h => hnop (h ▸ hd)) fun h => hstart (h ▸ hd)
  | illegal _ _ _ => exact ⟨rfl, rfl⟩
  | waits _ hwait => simp [hgo] at hwait
  | idle h | stream h => simp [hseq] at h

/-- The first read of a WAIT finds the block BUSY and the second finds it idle. -/
theorem runOp_wait_ends (h : s.Inv c) (hgo : (timing s.clock).go = true) (hseq : s.seq = .exec)
    (hstart : decode s.snap.word ≠ .command .start) :
    ∃ t, runOp c timing 2 .wait s = some t ∧ t.seq = .idle ∧ t.status.done = true := by
  obtain ⟨u, hu⟩ := hostCycle_next c timing (.read 2) false false s
  obtain ⟨v, hv⟩ := hostCycle_next c timing (.read 2) false false u
  obtain ⟨hidle, hdone⟩ : u.seq = .idle ∧ u.status.done = true := by
    obtain ⟨s1, hs, rfl⟩ := hostCycle_without_write (by simp) hu
    simpa using hs.completes hseq hgo (h.execWord hseq) hstart
  obtain ⟨hseq', hstatus⟩ : v.seq = u.seq ∧ v.status = u.status := by
    obtain ⟨u1, hs, rfl⟩ := hostCycle_without_write (by simp) hv
    simp [hs.eq_of_idle hidle]
  refine ⟨v, ?_, hseq'.trans hidle, hstatus ▸ hdone⟩
  rw [runOp_wait_of_cycle hu, if_neg (by simp [hseq]), runOp_wait_of_cycle hv, if_pos hidle]

/-- Settles O59: it holds, with one byte to a cycle of the SINK, and the execution step in the first of WAIT's two cycles. -/
theorem sinkAndWaitLinesEnd : Obligations.SinkAndWaitLinesEnd := by
  refine fun c timing s h htiming => ⟨fun n hseq hvalid hn => ?_, runOp_wait_ends h (htiming _).2⟩
  obtain ⟨t, ht, hidle⟩ := runOp_sink_ends (fun k => (htiming k).1) n h hseq hvalid hn
  exact ⟨t, ht, runOp_sink_taken ht, hidle⟩

end Sys2Proof.Machine
end

section
/-! SAMPLE (40_signal_generator.md R110) and the phase of the generator (R101). -/

namespace Sys2Proof.Machine

open Sys2Proof

variable {impl : SineImpl} {f i j sr : Nat} {s : State}

/-! ### SAMPLE (R110) -/

/-- Four low bytes of an integer are its 32-bit two's-complement pattern (R9). -/
theorem ofNat_lowBytes_four (S : Int) : BitVec.ofNat 32 (lowBytes S 4) = BitVec.ofInt 32 S := by
  apply BitVec.eq_of_toNat_eq
  rw [BitVec.toNat_ofInt, BitVec.toNat_ofNat, Nat.mod_eq_of_lt (lowBytes_lt S 4)]
  rfl

theorem execWith_sample_of_rate (h : s.snap.conf.sampleRate ≠ 0) : execWith impl .sample s = .next (complete .none .none
    { s with sampleResult := BitVec.ofInt 32 (s.snap.sampleAt impl s.snap.i) }) := by
  have hsr : s.snap.sr ≠ 0 := fun h0 => h (BitVec.eq_of_toNat_eq h0)
  rw [← ofNat_lowBytes_four]
  exact if_neg hsr

theorem execWith_sample_of_rate_zero (h : s.snap.conf.sampleRate = 0) :
    execWith impl .sample s = .next (raise .rateZero s) :=
  if_pos (congrArg BitVec.toNat h)

/-- Settles O10: the sample's four low bytes are its 32-bit pattern, and the default machine's quantizer is EXACT. -/
theorem sampleStoresTheGeneratorValue : Obligations.SampleStoresTheGeneratorValue := by
  refine ⟨by decide, fun impl s => ⟨fun h => ?_, execWith_sample_of_rate_zero⟩,
    fun s => execWith_device .sample s ▸ ⟨execWith_sample_of_rate, execWith_sample_of_rate_zero⟩⟩
  rw [execWith_sample_of_rate h]
  cases impl <;> rfl

/-! ### The phase (R101) -/

theorem phase_lt (hsr : 0 < sr) : phase f i sr < sr := Nat.mod_lt _ hsr

@[simp] theorem phase_index_zero : phase f 0 sr = 0 := Nat.zero_mod sr

@[simp] theorem phase_freq_zero : phase 0 i sr = 0 := by simp [phase]

@[simp] theorem phase_freq_mod : phase (f % sr) i sr = phase f i sr := by simp [phase, Nat.mul_mod]

@[simp] theorem phase_index_add_rate : phase f (i + sr) sr = phase f i sr := by simp [phase, Nat.mul_add]

/-- At half the rate the phase is 0 or half a turn. -/
theorem phase_half_rate (f i : Nat) : phase f i (2 * f) = 0 ∨ phase f i (2 * f) = f := by
  rw [phase, mul_comm 2 f, Nat.mul_mod_mul_left]
  rcases Nat.mod_two_eq_zero_or_one i with h | h <;> simp [h]

/-- Dropping whole turns keeps the sine. -/
theorem sin_phase (hsr : 0 < sr) :
    Real.sin (2 * Real.pi * phase f i sr / sr) = Real.sin (2 * Real.pi * f * i / sr) := by
  have hne : (sr : ℝ) ≠ 0 := by exact_mod_cast hsr.ne'
  have hdiv : (f * i : ℝ) = sr * (f * i / sr : Nat) + phase f i sr := by exact_mod_cast (Nat.div_add_mod (f * i) sr).symm
  have hangle : 2 * Real.pi * f * i / sr = 2 * Real.pi * phase f i sr / sr + (f * i / sr : Nat) * (2 * Real.pi) := by
    rw [mul_assoc (2 * Real.pi), hdiv]
    field_simp
    ring
  rw [hangle, Real.sin_add_nat_mul_two_pi]

/-- Settles O20: the phase leaves out whole turns alone. -/
theorem phaseIsExact : Obligations.PhaseIsExact := fun _ _ _ hsr => ⟨rfl, phase_lt hsr, (sin_phase hsr).symm⟩

end Sys2Proof.Machine
end

section
/-! The EXACT quantizer (R105, R106) and what every admitted generator shares (R107, R108). -/

namespace Sys2Proof.Machine

open Sys2Proof

variable {impl : SineImpl} {A p sr t : Nat} {v : Int}

/-! ### Roundings and ideal values -/

theorem rhaz_intCast (m : Int) : rhaz (m : ℝ) = m := by
  obtain ⟨n, rfl | rfl⟩ := m.eq_nat_or_neg <;> simp [rhaz_neg]

/-- A rounding stays between two opposite integers. -/
theorem abs_rhaz_le {x : ℝ} (h : |x| ≤ A) : |rhaz x| ≤ A := by
  obtain ⟨hlo, hhi⟩ := abs_le.mp h
  have lo := rhaz_mono hlo
  have hi := rhaz_mono hhi
  rw [rhaz_neg, rhaz_natCast] at lo
  rw [rhaz_natCast] at hi
  exact abs_le.mpr ⟨lo, hi⟩

@[simp] theorem idealValue_phase_zero : idealValue A 0 sr = 0 := by simp [idealValue]

@[simp] theorem idealValue_amplitude_zero : idealValue 0 p sr = 0 := by simp [idealValue]

theorem abs_idealValue_le : |idealValue A p sr| ≤ A := by
  rw [idealValue, abs_mul, Nat.abs_cast]
  exact mul_le_of_le_one_right (Nat.cast_nonneg A) (Real.abs_sin_le_one _)

/-- The sine is odd about half a turn. -/
theorem idealValue_rate_sub (hp : p < sr) : idealValue A (sr - p) sr = -idealValue A p sr := by
  have hne : (sr : ℝ) ≠ 0 := by exact_mod_cast (show sr ≠ 0 by omega)
  have hangle : 2 * Real.pi * (sr - p : Nat) / sr = 2 * Real.pi - 2 * Real.pi * p / sr := by
    rw [Nat.cast_sub hp.le]
    field_simp
  rw [idealValue, hangle, Real.sin_two_pi_sub, mul_neg, idealValue]

/-! ### The quantizer rounds the ideal value (R105) -/

/-- At a twelfth of a turn in the table the quantizer takes the table's value. -/
theorem quantExact_of_twelfth (hsr : 0 < sr) (ht : 12 * p = t * sr) (hv : rationalPoint A t = some v) :
    quantExact A p sr = v := by
  simp [quantExact, ht, Nat.mul_div_cancel _ hsr, hv]

/-- The two ways the quantizer finds its value: the table, and the enclosure. -/
theorem twelfth_or_none (A p sr : Nat) : (∃ t v, 12 * p = t * sr ∧ rationalPoint A t = some v)
    ∨ (if 12 * p % sr = 0 then rationalPoint A (12 * p / sr) else none) = none := by
  split
  case isTrue h =>
    rcases hv : rationalPoint A (12 * p / sr) with _ | v
    · exact .inr rfl
    · exact .inl ⟨_, v, (Nat.div_mul_cancel (Nat.dvd_of_mod_eq_zero h)).symm, hv⟩
  case isFalse => exact .inr rfl

theorem idealValue_of_twelfth (hsr : 0 < sr) (ht : 12 * p = t * sr) :
    idealValue A p sr = A * Real.sin (t * Real.pi / 6) := by
  have hne : (sr : ℝ) ≠ 0 := by exact_mod_cast hsr.ne'
  have ht' : 12 * (p : ℝ) = t * sr := by exact_mod_cast ht
  rw [idealValue, show 2 * Real.pi * p / sr = t * Real.pi / 6 by field_simp; linear_combination ht']

/-- R105: at the table's points by the table, elsewhere because no tie keeps the enclosure from closing. -/
theorem quantExact_eq_rhaz (h : SineDomain A p sr) : quantExact A p sr = rhaz (idealValue A p sr) := by
  obtain ⟨hA, hp, hsr⟩ := h
  have hpos : 0 < sr := by omega
  rcases twelfth_or_none A p sr with ⟨t, v, ht, hv⟩ | hnone
  · rw [quantExact_of_twelfth hpos ht hv, idealValue_of_twelfth hpos ht, rationalPoint_sound hv]
  · rw [quantExact, hnone]
    exact refineRounding_sound hp 40 24 (by decide) 39 (by decide)
      (roundedEnds_decided hA hp hsr (by norm_num) (no_tie hp hnone))

/-- Settles O21: the consequences are those of the rounding. -/
theorem exactQuantizerRoundsTheIdealValue : Obligations.ExactQuantizerRoundsTheIdealValue := by
  intro A p sr h
  obtain ⟨hA, hp, hsr⟩ := h
  rw [quantExact_eq_rhaz ⟨hA, hp, hsr⟩, quantExact_eq_rhaz ⟨hA, by omega, hsr⟩, quantExact_eq_rhaz ⟨by decide, hp, hsr⟩]
  exact ⟨rfl, abs_rhaz_le abs_idealValue_le, by simp, by simp⟩

/-! ### The rational points and the ties (R106) -/

/-- The table has the same points for every amplitude. -/
theorem rationalPoint_eq_none_congr {A' : Nat} (h : rationalPoint A t = none) : rationalPoint A' t = none := by
  unfold rationalPoint at h ⊢
  split <;> simp_all

/-- The table for twice an amplitude holds an odd number only at the four odd twelfths, and there the amplitude is odd. -/
theorem rationalPoint_two_mul_odd {k : Int} (h : rationalPoint (2 * A) t = some (2 * k + 1)) :
    A % 2 = 1 ∧ (t = 1 ∨ t = 5 ∨ t = 7 ∨ t = 11) := by
  unfold rationalPoint halfUp at h
  split at h <;> simp at h <;> omega

/-- Ties of the ideal value: twice it is an odd number, so the point is in the table, whose value for twice the amplitude is that
odd number. -/
theorem tie_cases (hp : p < sr) {k : Int} (hk : idealValue A p sr = k + 1 / 2) :
    A % 2 = 1 ∧ ∃ t, (t = 1 ∨ t = 5 ∨ t = 7 ∨ t = 11) ∧ 12 * p = t * sr := by
  have hodd : 2 * (A : ℝ) * Real.sin (2 * Real.pi * p / sr) = (2 * k + 1 : Int) := by
    rw [idealValue] at hk
    push_cast
    linear_combination 2 * hk
  rcases twelfth_or_none A p sr with ⟨t, v, ht, hv⟩ | hnone
  · obtain ⟨v', hv'⟩ : ∃ v', rationalPoint (2 * A) t = some v' := Option.ne_none_iff_exists'.mp fun hnone => by
      simp [rationalPoint_eq_none_congr hnone] at hv
    have hv2 : v' = 2 * k + 1 := by
      rw [← rhaz_intCast (2 * k + 1), ← hodd, rationalPoint_sound hv', ← idealValue_of_twelfth (by omega) ht, idealValue]
      push_cast
      rfl
    obtain ⟨hA, hcases⟩ := rationalPoint_two_mul_odd (hv2 ▸ hv')
    exact ⟨hA, t, hcases, ht⟩
  · exact absurd hodd (no_tie hp hnone k)

/-- Settles O22: the values are the table's, and `tie_cases` leaves no tie elsewhere. -/
theorem exactValuesAtRationalPoints : Obligations.ExactValuesAtRationalPoints := by
  rintro A p sr ⟨-, hp, -⟩
  have at_twelfth {t : Nat} {v : Int} (ht : 12 * p = t * sr) (hv : rationalPoint A t = some v) : quantExact A p sr = v :=
    quantExact_of_twelfth (by omega) ht hv
  refine ⟨fun h => ?_, ?_, fun h => ?_, fun h => ?_, ?_, fun h => ?_, ?_⟩
  · exact at_twelfth (t := 0) (by omega) rfl
  · rintro (h | h)
    · exact at_twelfth (t := 1) (by omega) rfl
    · exact at_twelfth h rfl
  · exact at_twelfth (t := 3) (by omega) rfl
  · exact at_twelfth (t := 6) (by omega) rfl
  · rintro (h | h) <;> exact at_twelfth h rfl
  · exact at_twelfth (t := 9) (by omega) rfl
  · rintro ⟨k, hk⟩
    obtain ⟨hA, t, rfl | rfl | rfl | rfl, ht⟩ := tie_cases hp hk
    all_goals exact ⟨hA, by omega⟩

/-! ### Every admitted generator (R107, R108) -/

/-- Settles O23: oddness is the sine's and the rounding's, the tolerance the rounding's. -/
theorem exactIsTheApproxCaseOfHalf : Obligations.ExactIsTheApproxCaseOfHalf where
  p2 A sr h := by simp [quantExact_eq_rhaz h]
  p3 A p sr h hp := by
    obtain ⟨hA, hlt, hsr⟩ := h
    rw [quantExact_eq_rhaz ⟨hA, by omega, hsr⟩, quantExact_eq_rhaz ⟨hA, hlt, hsr⟩, idealValue_rate_sub hlt, rhaz_neg]
  p4 A p sr h := by
    rw [quantExact_eq_rhaz h, abs_sub_comm]
    exact abs_sub_rhaz_le _
  p5 p sr h := by simp [quantExact_eq_rhaz h]

/-- The quantizer of an admitted SINE_IMPL meets R107, with some tolerance. -/
theorem AdmittedSine.exists_contract (h : AdmittedSine impl) : ∃ tol, SineContract tol (quantize impl) := by
  cases impl with
  | exact => exact ⟨1 / 2, exactIsTheApproxCaseOfHalf⟩
  | approx sineFn sineTol => exact ⟨sineTol, h⟩

section
variable {f i j : Nat} {tol : ℝ} (hq : SineContract tol (quantize impl)) (hA : A < 2 ^ 31) (hsr : 0 < sr) (hsr' : sr < 2 ^ 32)
include hq hA hsr hsr'

theorem SineContract.sampleAt_of_phase_zero (h : phase f i sr = 0) : sampleAt impl A f sr i = 0 := by
  rw [sampleAt, h]
  exact hq.p2 A sr ⟨hA, hsr, hsr'⟩

/-- R108 (f). -/
theorem SineContract.sampleAt_of_phases_add (h : phase f i sr + phase f j sr = sr) :
    sampleAt impl A f sr i = -sampleAt impl A f sr j := by
  have hi : phase f i sr < sr := phase_lt hsr
  have hj : phase f j sr < sr := phase_lt hsr
  rw [sampleAt, sampleAt, ← hq.p3 A _ sr ⟨hA, hj, hsr'⟩ (by omega)]
  congr 1
  omega

/-- R108 (e): half a turn is its own opposite. -/
theorem SineContract.sampleAt_half_rate (h : 2 * f = sr) : sampleAt impl A f sr i = 0 := by
  subst h
  rcases phase_half_rate f i with hzero | hhalf
  · exact hq.sampleAt_of_phase_zero hA hsr hsr' hzero
  · have := hq.sampleAt_of_phases_add hA hsr hsr' (f := f) (i := i) (j := i) (by omega)
    omega

end

/-- Settles O24: (a) and (b) are phase 0, (c) and (d) equal phases, (e) and (f) the oddness P3. -/
theorem generatorProperties : Obligations.GeneratorProperties := by
  intro impl A f sr i j himpl hA hsr hsr'
  obtain ⟨tol, hq⟩ := himpl.exists_contract
  exact ⟨hq.sampleAt_of_phase_zero hA hsr hsr' phase_index_zero, hq.sampleAt_of_phase_zero hA hsr hsr' phase_freq_zero,
    by simp [sampleAt], by simp [sampleAt], hq.sampleAt_half_rate hA hsr hsr', hq.sampleAt_of_phases_add hA hsr hsr'⟩

end Sys2Proof.Machine
end

section
/-! The header builder: the header's fields read back (R135, R138), the first failing check and HEADER (R137, R140). -/

namespace Sys2Proof.Machine

open Sys2Proof

variable {s : State} {cause : ErrCause} {sr bits B D : Nat}

/-! ### The fields of the header (R135, R138) -/

theorem leValue_fileSize (h : D + 36 < 2 ^ 32) : leValue (((headerBytes sr bits B D).drop 4).take 4) = D + 36 :=
  leValue_le32 h

theorem leValue_sampleRate (h : sr < 2 ^ 32) : leValue (((headerBytes sr bits B D).drop 24).take 4) = sr :=
  leValue_le32 h

theorem leValue_byteRate (h : sr * B < 2 ^ 32) : leValue (((headerBytes sr bits B D).drop 28).take 4) = sr * B :=
  leValue_le32 h

theorem leValue_blockAlign (h : B < 2 ^ 16) : leValue (((headerBytes sr bits B D).drop 32).take 2) = B :=
  leValue_le16 h

theorem leValue_bitsPerSample (h : bits < 2 ^ 16) : leValue (((headerBytes sr bits B D).drop 34).take 2) = bits :=
  leValue_le16 h

theorem leValue_dataSize (h : D < 2 ^ 32) : leValue (((headerBytes sr bits B D).drop 40).take 4) = D :=
  leValue_le32 h

/-- A legal width has at most four bytes (R131). -/
theorem Snapshot.B_le_four {n : Snapshot} (h : n.bits = 8 ∨ n.bits = 16 ∨ n.bits = 24 ∨ n.bits = 32) : n.B ≤ 4 := by
  rw [Snapshot.B]
  omega

/-- Settles O18: each field is laid out whole in its own bytes, and a passing check bounds the number in it. -/
theorem headerFieldsAreNeverCut : Obligations.HeaderFieldsAreNeverCut := by
  intro n hbits hsize hrate
  have hB := Snapshot.B_le_four hbits
  exact ⟨leValue_fileSize (by omega), leValue_sampleRate n.conf.sampleRate.isLt, leValue_byteRate (by omega),
    leValue_blockAlign (by omega), leValue_bitsPerSample (by omega), leValue_dataSize (by omega)⟩

/-! ### HEADER (R137, R140) -/

theorem exec_header_of_pass (h : firstFailing (headerChecks s.snap) = none) :
    exec .header s = .next (complete .none .none { s with header := headerWindow s.snap.headerBytes }) := by
  rw [exec, execHeader, h]

theorem exec_header_of_fail (h : firstFailing (headerChecks s.snap) = some cause) :
    exec .header s = .next (raise cause s) := by
  rw [exec, execHeader, h]

/-- Settles O11: the checks pass, and a legal width fits the field of the window's word 8. -/
theorem headerWritesTheWindow : Obligations.HeaderWritesTheWindow := by
  intro s hbits hsr hsize hrate
  have hB := Snapshot.B_le_four hbits
  have hwindow := headerWindow_headerBytes s.snap.sr s.snap.bits s.snap.B s.snap.D (by omega)
  have hword : BitVec.ofNat 32 s.snap.sr = s.snap.conf.sampleRate := by simp [Snapshot.sr]
  rw [exec_header_of_pass ((headerChecks_none_iff _).mpr ⟨hbits, hsr, hsize, hrate⟩), Snapshot.headerBytes, hwindow, hword]
  rfl

/-- The check HEADER reports: each one only where the earlier ones pass (R137, R227). -/
theorem firstFailing_headerChecks (n : Snapshot) : firstFailing (headerChecks n) =
    if ¬(n.bits = 8 ∨ n.bits = 16 ∨ n.bits = 24 ∨ n.bits = 32) then some .bitsIllegal
    else if n.sr = 0 then some .rateZero
    else if maxDataBytes < n.D then some .sizeOverflow
    else if maxField < n.sr * n.B then some .rateOverflow
    else none := by
  simp [headerChecks, checkBits, checkRate, checkSize, checkByteRate, ← legalBits_iff]

/-- Settles O12: the clauses are the branches of `firstFailing_headerChecks`. -/
theorem headerFailsAtItsFirstFailingCheck : Obligations.HeaderFailsAtItsFirstFailingCheck := by
  intro s
  have hchecks := firstFailing_headerChecks s.snap
  refine ⟨fun hbits => ?_, fun hbits => ?_⟩
  · exact exec_header_of_fail (hchecks.trans (if_pos hbits))
  rw [if_neg (not_not.mpr hbits)] at hchecks
  refine ⟨fun hsr => ?_, fun hsr => ?_⟩
  · exact exec_header_of_fail (hchecks.trans (if_pos hsr))
  rw [if_neg hsr] at hchecks
  refine ⟨fun hsize => ?_, fun hsize hrate => ?_⟩
  · exact exec_header_of_fail (hchecks.trans (if_pos hsize))
  · exact exec_header_of_fail (hchecks.trans ((if_neg (Nat.not_lt.mpr hsize)).trans (if_pos hrate)))

end Sys2Proof.Machine
end

section
/-! The data packer: unpacking a packed sample (R161, R162, R165) and PACK (R164). -/

namespace Sys2Proof.Machine

open Sys2Proof

variable {s : State}

/-! ### Unpacking (R165) -/

theorem lowBytes_cast (S : Int) (B : Nat) : (lowBytes S B : Int) = S % 2 ^ (8 * B) :=
  Int.toNat_of_nonneg (Int.emod_nonneg S (by positivity))

/-- Sign-extending the low bytes of an integer takes its balanced remainder: the representative in the signed range (R9). -/
theorem signedOf_lowBytes (S : Int) (B : Nat) : signedOf (lowBytes S B) B = S.bmod (2 ^ (8 * B)) := by
  have hhalf : 2 * lowBytes S B < 2 ^ (8 * B) ↔ S % 2 ^ (8 * B) < (2 ^ (8 * B) + 1) / 2 := by
    rw [← lowBytes_cast]
    zify
    omega
  rw [signedOf, Int.bmod_def, if_congr hhalf (lowBytes_cast S B) rfl, lowBytes_cast]
  push_cast
  rfl

theorem unpackOne_packOne (S : Int) (B : Nat) : unpackOne (packOne S B) = S.bmod (2 ^ (8 * B)) := by
  rw [unpackOne, leValue_packOne, packOne_length, signedOf_lowBytes]

/-- Settles O19: the balanced remainder modulo `2 ^ (8 * B)` lies in the signed range, agrees with the sample, and is the
sample where that is in the range. -/
theorem unpackingRecoversTheCutSample : Obligations.UnpackingRecoversTheCutSample := by
  intro S B hB
  have hpow : (2 : Nat) ^ (8 * B) = 2 * 2 ^ (8 * B - 1) := (mul_pow_sub_one (by omega) 2).symm
  have hlow := Int.le_bmod (x := S) (m := 2 ^ (8 * B)) (by positivity)
  have hhigh := Int.bmod_lt (x := S) (m := 2 ^ (8 * B)) (by positivity)
  have hcongr := Int.emod_eq_zero_of_dvd (Int.dvd_bmod_sub_self (x := S) (m := 2 ^ (8 * B)))
  rw [unpackOne_packOne]
  refine ⟨packOne_length S B, ?_, ?_, mod_cast hcongr, fun hle hlt => Int.bmod_eq_of_le_mul_two ?_ ?_⟩
  all_goals
    zify at hpow hlow hhigh ⊢
    omega

/-! ### PACK (R164) -/

/-- The low bytes of a word read as signed are those of the word: sign extension only adds higher ones (R83, R164). -/
theorem lowBytes_toInt (v : Word) {B : Nat} (hB : B ≤ 4) : lowBytes v.toInt B = v.toNat % 2 ^ (8 * B) := by
  have hdvd : (2 : Int) ^ (8 * B) ∣ (2 ^ 32 : Nat) := mod_cast pow_dvd_pow 2 (by omega)
  zify
  rw [lowBytes_cast, BitVec.toInt_eq_toNat_bmod, ← Int.emod_emod_of_dvd _ hdvd, Int.bmod_emod, Int.emod_emod_of_dvd _ hdvd]

theorem Snapshot.eight_mul_B {n : Snapshot} (h : n.bits = 8 ∨ n.bits = 16 ∨ n.bits = 24 ∨ n.bits = 32) :
    8 * n.B = n.bits := by
  rw [Snapshot.B]
  omega

theorem exec_pack_of_legal (h : legalBits s.snap.bits = true) : exec .pack s = .next (complete .none .none
    { s with packOut := BitVec.ofNat 32 (lowBytes s.snap.pin s.snap.B) }) := by
  have hchecks : firstFailing [checkBits s.snap] = none := by simp [checkBits, h]
  rw [exec, execPack, hchecks]

theorem exec_pack_of_illegal (h : legalBits s.snap.bits = false) : exec .pack s = .next (raise .bitsIllegal s) := by
  have hchecks : firstFailing [checkBits s.snap] = some .bitsIllegal := by simp [checkBits, h]
  rw [exec, execPack, hchecks]

/-- Settles O13: the only check is on BITS, and where it passes the low `B` bytes of PACK_IN are its remainder. -/
theorem packStoresTheLowBytes : Obligations.PackStoresTheLowBytes := by
  refine ⟨rfl, fun s => ⟨fun hbits => ?_, fun hbits => ?_⟩⟩
  · rw [exec_pack_of_legal ((legalBits_iff _).mpr hbits), Snapshot.pin, lowBytes_toInt _ (Snapshot.B_le_four hbits),
      Snapshot.eight_mul_B hbits]
  · exact exec_pack_of_illegal (Bool.eq_false_iff.mpr fun h => hbits ((legalBits_iff _).mp h))

end Sys2Proof.Machine
end

section
/-! An edge of a run, whole (R191–R193): the byte the sink takes, the end of the run, and what the host leaves of both. -/

namespace Sys2Proof.Machine

open Sys2Proof

variable {impl : SineImpl} {c : Params} {e : Edge} {s : State}

/-! ### The byte taken (R66, R191) -/

theorem takes_iff : takes e s = true ↔ s.outValid = true ∧ e.ready = true := Bool.and_eq_true_iff

theorem offeredLast_iff : s.offeredLast = true ↔ s.pos = s.snap.L - 1 := beq_iff_eq

/-- While a byte is on offer the ports show it (R47). -/
theorem ports_of_outValid (h : s.outValid = true) :
    (s.ports impl).outData = s.offeredByte impl ∧ (s.ports impl).outLast = s.offeredLast := by
  simp [State.ports, h]

/-- What the ports show is what the sink gets (R66). -/
@[simp] theorem afterByte_taken : (afterByte c e s).taken = if s.outValid = true ∧ e.ready = true then
    { data := (s.ports c.sine).outData, last := (s.ports c.sine).outLast } :: s.taken else s.taken := by
  unfold afterByte
  by_cases h : takes e s = true
  · obtain ⟨hdata, hlast⟩ := ports_of_outValid (impl := c.sine) (takes_iff.mp h).1
    rw [if_pos h, if_pos (takes_iff.mp h), hdata, hlast, laneWork_taken, takeByte_taken]
  · rw [if_neg h, if_neg (mt takes_iff.mpr h), laneWork_taken]

@[simp] theorem afterByte_progress : (afterByte c e s).progress =
    if s.outValid = true ∧ e.ready = true then s.progress.count s.pos s.snap.B else s.progress := by
  rw [afterByte, laneWork_progress, apply_ite State.progress, takeByte_progress]
  exact if_congr takes_iff rfl rfl

/-- A ready sink leaves nothing on offer (R67). -/
@[simp] theorem afterByte_outValid : (afterByte c e s).outValid = (s.outValid && !e.ready) := by
  rw [afterByte, laneWork_outValid, apply_ite State.outValid, takeByte_outValid, takes]
  cases s.outValid <;> cases e.ready <;> rfl

/-- The four fields the byte and the lanes' work can change. -/
theorem afterByte_eq (c : Params) (e : Edge) (s : State) : afterByte c e s = { s with
    taken := (afterByte c e s).taken, progress := (afterByte c e s).progress, outValid := (afterByte c e s).outValid
    lanes := (afterByte c e s).lanes } := by
  obtain ⟨lanes, hlanes⟩ := laneWork_eq c e (if takes e s then takeByte c.sine s else s)
  rw [afterByte, hlanes]
  split <;> rfl

/-! ### The end of a run (R192, R193) -/

/-- The edge ends the run: by a sink error, or by the taking of its last byte. -/
def endsRun (e : Edge) (s : State) : Prop := e.err = true ∨ takes e s = true ∧ s.offeredLast = true

theorem streamEdge_of_end (h : endsRun e s) :
    streamEdge c e s = raise (if e.err then .sinkError else .none) (afterByte c e s) := by
  rw [streamEdge_eq]
  rcases h with herr | ⟨htakes, hlast⟩
  · simp [herr]
  · simp [htakes, hlast, apply_ite (fun cause => raise cause (afterByte c e s))]

theorem streamEdge_of_not_end (h : ¬endsRun e s) : streamEdge c e s = afterByte c e s := by
  obtain ⟨herr, htakes⟩ := not_or.mp h
  rw [streamEdge_eq, if_neg herr, if_neg (by simpa using htakes)]

@[simp] theorem streamEdge_taken : (streamEdge c e s).taken = (afterByte c e s).taken := by
  rw [streamEdge_eq]
  split_ifs <;> rfl

@[simp] theorem streamEdge_progress : (streamEdge c e s).progress = (afterByte c e s).progress := by
  rw [streamEdge_eq]
  split_ifs <;> rfl

/-- Settles O60: the branches of an edge in STREAM, on the state `afterByte_eq` gives field by field. -/
theorem streamEdgeChangesTheRunAlone : Obligations.StreamEdgeChangesTheRunAlone := by
  intro c e s hseq takes taken progress
  have hafter := afterByte_eq c e s
  rw [afterByte_taken, afterByte_progress, afterByte_outValid] at hafter
  have hend (h : endsRun e s) : streamEdge c e s = raise (if e.err then .sinkError else .none) { s with
      taken := taken, progress := progress } := by
    rw [streamEdge_of_end h, hafter]
    rfl
  refine ⟨streamEdge c e s, by rw [sequencerEdge, hseq], fun herr => ?_, fun herr hlast => ?_, fun herr hlast => ?_⟩
  · rw [hend (.inl herr), herr]
    rfl
  · rw [hend (.inr ⟨takes_iff.mpr hlast.1, offeredLast_iff.mpr hlast.2⟩), herr]
    rfl
  · have h : ¬endsRun e s := by
      rw [endsRun, takes_iff, offeredLast_iff, herr]
      exact not_or.mpr ⟨by decide, hlast⟩
    rw [streamEdge_of_not_end h]
    exact hafter

end Sys2Proof.Machine
end

section
/-! A step of a run (R191–R198): what the sink, the end of the run and the host's access leave of it. -/

namespace Sys2Proof.Machine

open Sys2Proof

variable {c : Params} {e : Edge} {s t : State} {v : Word} {w : RegIndex} {busyBefore : Bool}

/-! ### The host's access during a run (R198) -/

/-- What no host access to a BUSY block changes, and DONE at the edge of a completion (R38, R182, R262). -/
structure HostFrame (s t : State) : Prop where
  seq : t.seq = s.seq
  snap : t.snap = s.snap
  progress : t.progress = s.progress
  taken : t.taken = s.taken
  edges : t.edges = s.edges
  outValid : t.outValid = s.outValid
  header : t.header = s.header
  sampleResult : t.sampleResult = s.sampleResult
  packOut : t.packOut = s.packOut
  lastcmd : t.status.lastcmd = s.status.lastcmd
  errcode : t.status.errcode = s.status.errcode
  errcause : t.status.errcause = s.status.errcause
  done : s.seq = .idle → t.status.done = s.status.done

theorem HostCase.frame (ht : HostCase e true s t) : HostFrame s t := by
  cases ht with
  | noWrite _ | dropped _ _ _ => constructor <;> intros <;> rfl
  | nop _ _ hb _ | accepted _ _ hb _ => cases hb
  | status v _ =>
    exact { seq := rfl, snap := rfl, progress := rfl, taken := rfl, edges := rfl, outValid := rfl, header := rfl
            sampleResult := rfl, packOut := rfl, lastcmd := rfl, errcode := rfl, errcause := rfl
            done := fun hidle => by simp [Status.hostWrite, busy_eq_false_iff.mpr hidle] }
  | plain _ _ _ _ _ => constructor <;> intros <;> simp

theorem HostCase.ie_conf_of_no_write (ht : HostCase e busyBefore s t) (ha : ∀ w v, e.access ≠ .write w v) :
    t.ie = s.ie ∧ t.conf = s.conf := by
  cases ht with
  | noWrite _ => exact ⟨rfl, rfl⟩
  | dropped v h _ | nop v h _ _ | accepted v h _ _ | status v h | plain _ v h _ _ => exact absurd h (ha _ v)

/-- CMD and STATUS are no configuration registers and not CTRL, so this holds at every word (R22, R62). -/
theorem HostCase.ie_conf_of_write (ht : HostCase e busyBefore s t) (ha : e.access = .write w v) :
    t.ie = (if w = 0 then v.getLsbD 0 else s.ie) ∧ t.conf = s.conf.write w v := by
  cases ht with
  | noWrite h => exact absurd ha (h w v)
  | dropped _ h _ | nop _ h _ _ | accepted _ h _ _ | status _ h =>
    cases ha.symm.trans h
    exact ⟨rfl, rfl⟩
  | plain _ _ h _ _ =>
    cases ha.symm.trans h
    refine ⟨?_, plainWrite_conf ..⟩
    rw [plainWrite]
    split <;> rfl

/-- A configuration write register by register (R62). -/
theorem ConfigRegs.write_eq (w : RegIndex) (v : Word) (k : ConfigRegs) : k.write w v =
    { sampleRate := if w = 3 then v else k.sampleRate
      bits := if w = 4 then v else k.bits
      freq := if w = 5 then v else k.freq
      amplitude := if w = 6 then v.extractLsb' 0 31 else k.amplitude
      numSamples := if w = 7 then v else k.numSamples
      sampleIndex := if w = 8 then v else k.sampleIndex
      packIn := if w = 10 then v else k.packIn } := by
  simp only [← BitVec.toNat_inj, BitVec.ofNat_eq_ofNat, BitVec.toNat_ofNat, Nat.reducePow, Nat.reduceMod]
  rw [← write_sampleRate, ← write_bits, ← write_freq, ← write_amplitude, ← write_numSamples, ← write_sampleIndex,
    ← write_packIn]

/-! ### The step -/

theorem present_outValid_of_stream (h : s.seq = .stream) : (present e s).outValid = (e.offer || s.outValid) := by
  rw [present]
  cases hoffer : e.offer <;> simp [h]

/-- Without reset a step of a run is the run's edge, the offer and the host's access. -/
theorem stepWith_of_stream (hrst : s.nextEdge.rst = false) (hseq : s.seq = .stream) (h : stepWith c s = .next t) :
    HostCase s.nextEdge true (present s.nextEdge (streamEdge c s.nextEdge (beginEdge s.nextEdge s))) t := by
  obtain ⟨s1, hs, hh⟩ := stepWith_parts hrst h
  rw [busy_eq_true (by simp [hseq])] at hh
  exact hs.eq_of_stream hseq ▸ hh

/-- What a step of a run leaves, whatever the host does on its port. -/
structure RunStep (c : Params) (s t : State) : Prop where
  taken : t.taken = if s.outValid = true ∧ s.nextEdge.ready = true then
    { data := (s.ports c.sine).outData, last := (s.ports c.sine).outLast } :: s.taken else s.taken
  progress : t.progress =
    if s.outValid = true ∧ s.nextEdge.ready = true then s.progress.count s.pos s.snap.B else s.progress
  ended : endsRun s.nextEdge s → t.seq = .idle ∧ t.outValid = false ∧ t.status.done = true
    ∧ t.status.errcode = (if s.nextEdge.err then .ioFailure else .none)
    ∧ t.status.errcause = (if s.nextEdge.err then .sinkError else .none)
  goesOn : ¬endsRun s.nextEdge s →
    t.seq = .stream ∧ t.outValid = (s.nextEdge.offer || s.outValid && !s.nextEdge.ready)
  edges : t.edges = s.edges.tail
  snap : t.snap = s.snap
  lastcmd : t.status.lastcmd = s.status.lastcmd
  header : t.header = s.header
  sampleResult : t.sampleResult = s.sampleResult
  packOut : t.packOut = s.packOut

theorem stepWith_runStep (hrst : s.nextEdge.rst = false) (hseq : s.seq = .stream) (h : stepWith c s = .next t) :
    RunStep c s t := by
  have hhost := (stepWith_of_stream hrst hseq h).frame
  have hrun := streamEdge_frame c s.nextEdge (beginEdge s.nextEdge s)
  obtain ⟨hsample, hpack, hheader⟩ := streamEdge_results c s.nextEdge (beginEdge s.nextEdge s)
  exact {
    taken := by
      rw [hhost.taken, present_taken, streamEdge_taken, afterByte_taken]
      refine ite_congr rfl (fun ⟨hvalid, _⟩ => ?_) fun _ => rfl
      obtain ⟨_, hdata, hlast⟩ := (beginEdge_offerKept (impl := c.sine) s.nextEdge s).ports_eq hvalid
      rw [hdata, hlast, beginEdge_taken]
    progress := by
      rw [hhost.progress, present_progress, streamEdge_progress, afterByte_progress]
      rfl
    ended := fun hend => by
      have hidle := streamEdge_of_end (c := c) (s := beginEdge s.nextEdge s) hend
      rw [hhost.seq, hhost.outValid, hhost.done (by rw [hidle]; simp [raise]), hhost.errcode, hhost.errcause, hidle,
        present_of_ne_stream (by simp [raise])]
      refine ⟨rfl, rfl, rfl, ?_, rfl⟩
      cases s.nextEdge.err <;> rfl
    goesOn := fun hend => by
      have hstream := streamEdge_of_not_end (c := c) (s := beginEdge s.nextEdge s) hend
      have hafter : (afterByte c s.nextEdge (beginEdge s.nextEdge s)).seq = .stream := afterByte_seq.trans hseq
      rw [hhost.seq, hhost.outValid, hstream, present_seq, present_outValid_of_stream hafter, afterByte_outValid]
      exact ⟨hafter, rfl⟩
    edges := by rw [hhost.edges, present_edges, hrun.edges, beginEdge_edges]
    snap := by rw [hhost.snap, present_snap, hrun.snap, beginEdge_snap]
    lastcmd := by rw [hhost.lastcmd, present_status, hrun.lastcmd, beginEdge_status]
    header := by rw [hhost.header, present_header, hheader, beginEdge_header]
    sampleResult := by rw [hhost.sampleResult, present_sampleResult, hsample, beginEdge_sampleResult]
    packOut := by rw [hhost.packOut, present_packOut, hpack, beginEdge_packOut] }

theorem RunStep.seq_idle_iff (h : RunStep c s t) : t.seq = .idle ↔ endsRun s.nextEdge s := by
  refine ⟨fun hidle => ?_, fun hend => (h.ended hend).1⟩
  by_contra hend
  simp [(h.goesOn hend).1] at hidle

theorem endsRun_iff : endsRun e s ↔ e.err = true ∨ s.outValid = true ∧ e.ready = true ∧ s.pos = s.snap.L - 1 := by
  rw [endsRun, takes_iff, offeredLast_iff, and_assoc]

/-- Settles O45: the clauses are those of `RunStep`, and the host's own write. -/
theorem takenByteIsCounted : Obligations.TakenByteIsCounted := by
  intro c s t hrst hseq hstep
  have hhost := stepWith_of_stream hrst hseq hstep
  have hrun := stepWith_runStep hrst hseq hstep
  have hframe := streamEdge_frame c s.nextEdge (beginEdge s.nextEdge s)
  have hend := hrun.seq_idle_iff
  have goesOn (h : t.seq = .stream) := hrun.goesOn (mt hend.mpr (by simp [h]))
  refine ⟨fun hvalid hready => ?_, fun hnot => ?_, hend.trans endsRun_iff, fun hne => (hrun.goesOn (mt hend.mpr hne)).1,
    fun hoffer h => ?_, fun hoffer h => ?_, fun hidle => (hrun.ended (hend.mp hidle)).2.2, hrun.snap, hrun.lastcmd,
    hrun.header, hrun.sampleResult, hrun.packOut, fun ha => ?_, fun w v ha => ?_⟩
  · rw [hrun.taken, hrun.progress, if_pos ⟨hvalid, hready⟩, if_pos ⟨hvalid, hready⟩]
    exact ⟨rfl, count_header, count_data⟩
  · have hnot' : ¬(s.outValid = true ∧ s.nextEdge.ready = true) := by
      rcases hnot with h | h <;> simp [h]
    exact ⟨hrun.taken.trans (if_neg hnot'), hrun.progress.trans (if_neg hnot')⟩
  · simp [(goesOn h).2, hoffer]
  · simp [(goesOn h).2, hoffer]
  · simpa [hframe.ie, hframe.conf] using hhost.ie_conf_of_no_write ha
  · simpa [hframe.ie, hframe.conf, ConfigRegs.write_eq] using hhost.ie_conf_of_write ha

end Sys2Proof.Machine
end

section
/-! The bytes and the counts of a run (R191, R195), up to its end (R192, R193). -/

namespace Sys2Proof.Machine

open Sys2Proof

variable {c : Params} {s t : State} {n : Snapshot} {p : Progress} {D : Nat}

theorem Snapshot.Valid.B_pos (h : n.Valid) : 0 < n.B := by
  obtain ⟨hbits, _⟩ := h
  rw [Snapshot.B]
  omega

/-- Settles O47: an edge with a sink error ends the run, whatever else it does. -/
theorem sinkErrorEndsTheRun : Obligations.SinkErrorEndsTheRun := by
  intro c s t hrst herr hseq hstep
  have hrun := stepWith_runStep hrst hseq hstep
  obtain ⟨hidle, hvalid, hdone, hcode, hcause⟩ := hrun.ended (.inl herr)
  rw [herr] at hcode hcause
  exact ⟨hidle, hdone, hcode, hcause, hvalid, hrun.header, hrun.taken, hrun.progress⟩

/-! ### The counts of a whole file (R41–R43, R192) -/

/-- Past the header the position is the header's 44 bytes and the data bytes. -/
theorem Progress.HeaderFirst.counts_of_pos (h : p.HeaderFirst) (hpos : p.hdrBytes.toNat + p.dataBytes.toNat = 44 + D) :
    p.hdrBytes.toNat = 44 ∧ p.dataBytes.toNat = D := by
  obtain ⟨h44, hzero⟩ := h
  have hfull : ¬p.hdrBytes.toNat < 44 := fun hlt => by
    rw [hzero hlt] at hpos
    simp at hpos
    omega
  omega

theorem State.Inv.takeByte_sampleCount (h : s.Inv c) (hseq : s.seq = .stream) :
    (takeByte c.sine s).progress.sampleCount.toNat = (takeByte c.sine s).progress.dataBytes.toNat / s.snap.B := by
  obtain ⟨h44, hzero⟩ := h.headerFirst
  exact count_samples h44 hzero (h.dataBytes_succ_lt hseq) (h.streamValid hseq).2.B_pos (h.sampleCount hseq) rfl

/-- Settles O46: the last byte moves the position to `L`, which fixes the three counts. -/
theorem lastByteCompletesTheRun : Obligations.LastByteCompletesTheRun := by
  intro c s t h hrst herr hready hseq hvalid hlast hstep
  have hrun := stepWith_runStep hrst hseq hstep
  obtain ⟨hidle, hoffer, hdone, hcode, hcause⟩ := hrun.ended (endsRun_iff.mpr (.inr ⟨hvalid, hready, hlast⟩))
  rw [herr] at hcode hcause
  have hprogress : t.progress = (takeByte c.sine s).progress := hrun.progress.trans (if_pos ⟨hvalid, hready⟩)
  have hB := (h.streamValid hseq).2.B_pos
  obtain ⟨hpos, hfirst⟩ := h.takeByte_pos hseq
  have hL : (takeByte c.sine s).pos = 44 + s.snap.D := by
    have hbefore := h.position hseq
    rw [Snapshot.L] at hlast hbefore
    omega
  obtain ⟨hhdr, hdata⟩ := hfirst.counts_of_pos hL
  have hcount : (takeByte c.sine s).progress.sampleCount.toNat = s.snap.N := by
    rw [h.takeByte_sampleCount hseq, hdata, Snapshot.D, Nat.mul_div_cancel _ hB]
  rw [hprogress]
  exact ⟨hidle, hdone, hcode, hcause, hoffer, hhdr, hdata, BitVec.eq_of_toNat_eq hcount⟩

/-! ### The bytes of a run (R195) -/

/-- The bytes of a run are fixed by what the sink has and the position. -/
theorem runBytes_congr (htaken : t.taken = s.taken) (hprogress : t.progress = s.progress) :
    t.runBytes = s.runBytes ∧ t.pos = s.pos := by
  rw [State.runBytes, State.runBytes, State.pos, State.pos, htaken, hprogress]
  exact ⟨rfl, rfl⟩

theorem State.Inv.runBytes_data (h : s.Inv c) (hseq : s.seq = .stream) :
    s.runBytes.map SinkByte.data = (List.range s.pos).map (s.snap.streamByte c.sine) := by
  rw [h.bytesTaken hseq, List.map_map]
  rfl

theorem State.Inv.takeByte_runBytes_data (h : s.Inv c) (hseq : s.seq = .stream) :
    (takeByte c.sine s).runBytes.map SinkByte.data
      = (List.range (takeByte c.sine s).pos).map (s.snap.streamByte c.sine) := by
  have hbyte := offeredByte_eq fun l hl => (h.laneSamples l hl).1
  have hbytes := h.runBytes_data hseq
  rw [State.runBytes] at hbytes
  rw [State.runBytes, (h.takeByte_pos hseq).1, takeByte_taken, List.take_succ_cons, List.reverse_cons, List.map_append, hbytes,
    List.map_singleton, hbyte, List.range_succ, List.map_append, List.map_singleton]

/-- Where the sink takes a byte, it has what `takeByte` gives it. -/
theorem RunStep.of_taken (h : RunStep c s t) (hvalid : s.outValid = true) (hready : s.nextEdge.ready = true) :
    t.taken = (takeByte c.sine s).taken ∧ t.progress = (takeByte c.sine s).progress := by
  obtain ⟨hdata, hlast⟩ := ports_of_outValid (impl := c.sine) hvalid
  rw [h.taken, h.progress, if_pos ⟨hvalid, hready⟩, if_pos ⟨hvalid, hready⟩, hdata, hlast]
  exact ⟨rfl, rfl⟩

/-- After any step of a run the sink has the stream bytes up to the position reached, which is one further at most. -/
theorem RunStep.runBytes_data (hrun : RunStep c s t) (h : s.Inv c) (hseq : s.seq = .stream) :
    t.runBytes.map SinkByte.data = (List.range t.pos).map (s.snap.streamByte c.sine) ∧ t.pos ≤ s.pos + 1 := by
  by_cases htakes : s.outValid = true ∧ s.nextEdge.ready = true
  · obtain ⟨htaken, hprogress⟩ := hrun.of_taken htakes.1 htakes.2
    obtain ⟨hbytes, hpos⟩ := runBytes_congr htaken hprogress
    rw [hbytes, hpos]
    exact ⟨h.takeByte_runBytes_data hseq, (h.takeByte_pos hseq).1.le⟩
  · obtain ⟨hbytes, hpos⟩ := runBytes_congr (hrun.taken.trans (if_neg htakes)) (hrun.progress.trans (if_neg htakes))
    rw [hbytes, hpos]
    exact ⟨h.runBytes_data hseq, Nat.le_succ _⟩

theorem RunStep.pos_of_taken (hrun : RunStep c s t) (h : s.Inv c) (hseq : s.seq = .stream) (hvalid : s.outValid = true)
    (hready : s.nextEdge.ready = true) : t.pos = s.pos + 1 := by
  obtain ⟨htaken, hprogress⟩ := hrun.of_taken hvalid hready
  rw [(runBytes_congr htaken hprogress).2, (h.takeByte_pos hseq).1]

/-- Settles O50: the run ended by its last byte or by a sink error; the first is at the end of the stream, and the second alone
is reported. -/
theorem runEndsWithExactlyItsStreamBytes : Obligations.RunEndsWithExactlyItsStreamBytes := by
  intro c s t h hrst hseq hstep hidle
  have hrun := stepWith_runStep hrst hseq hstep
  have hend := hrun.seq_idle_iff.mp hidle
  obtain ⟨hbytes, hnext⟩ := hrun.runBytes_data h hseq
  obtain ⟨_, _, _, hcode, _⟩ := hrun.ended hend
  have hpos := h.position hseq
  have hlast (herr : s.nextEdge.err = false) : s.outValid = true ∧ s.nextEdge.ready = true ∧ t.pos = s.snap.L := by
    obtain ⟨hvalid, hready, hL⟩ := (endsRun_iff.mp hend).resolve_left (by simp [herr])
    exact ⟨hvalid, hready, by rw [hrun.pos_of_taken h hseq hvalid hready]; omega⟩
  rw [hcode]
  refine ⟨hbytes, ?_⟩
  cases herr : s.nextEdge.err with
  | false => exact ⟨by simp [(hlast herr).2.2], by simp, by simp, fun _ => hlast herr⟩
  | true => exact ⟨by simp, fun _ => ⟨rfl, by omega⟩, by simp, by simp⟩

end Sys2Proof.Machine
end

section
/-! The stream of a run as one text: the header, then the packed samples (R160, R189, R196). -/

namespace Sys2Proof.Machine

open Sys2Proof

/-- The bytes of packed samples, one by one in index order. -/
theorem map_range_mul_packed (sample : Nat → Int) {B : Nat} (hB : 0 < B) (N : Nat) :
    (List.range (N * B)).map (fun k => byteOf (lowBytes (sample (k / B)) B) (k % B))
      = (List.range N).flatMap fun i => packOne (sample i) B := by
  induction N with
  | zero => simp
  | succ N ih =>
    have hlast : (List.range B).map (fun j => byteOf (lowBytes (sample ((N * B + j) / B)) B) ((N * B + j) % B))
        = packOne (sample N) B := by
      refine List.map_congr_left fun j hj => ?_
      have hj := List.mem_range.mp hj
      rw [mul_comm N, Nat.mul_add_div hB, Nat.div_eq_of_lt hj, Nat.mul_add_mod, Nat.mod_eq_of_lt hj, Nat.add_zero]
    rw [Nat.succ_mul, List.range_add, List.map_append, ih, List.map_map, List.range_succ, List.flatMap_append,
      List.flatMap_singleton, ← hlast]
    rfl

/-- The first 44 positions are the header's (R189). -/
theorem map_range_streamByte_header (impl : SineImpl) (n : Snapshot) :
    (List.range 44).map (n.streamByte impl) = n.headerBytes := by
  have hlength : n.headerBytes.length = 44 := headerBytes_length ..
  refine List.ext_getElem (by simp [hlength]) fun k hk hk' => ?_
  have hlt : k < 44 := hlength ▸ hk'
  rw [List.getElem_map, List.getElem_range, Snapshot.streamByte, streamByteOf, if_pos hlt, List.getD_eq_getElem _ _ hk']

theorem streamByte_data (impl : SineImpl) (n : Snapshot) (k : Nat) : n.streamByte impl (44 + k)
    = byteOf (lowBytes (n.sampleAt impl (k / n.B)) n.B) (k % n.B) := by
  simp [Snapshot.streamByte, streamByteOf, Snapshot.sampleIndexAt]

theorem map_range_streamByte (impl : SineImpl) (n : Snapshot) (hB : 0 < n.B) :
    (List.range n.L).map (n.streamByte impl) = n.file impl := by
  rw [Snapshot.L, List.range_add, List.map_append, map_range_streamByte_header, List.map_map, Snapshot.file, Snapshot.D,
    ← map_range_mul_packed _ hB]
  congr 1
  exact List.map_congr_left fun k _ => streamByte_data impl n k

/-- Settles O49: the positions below 44 are the header's, and those above count through the samples. -/
theorem streamIsTheHeaderThenThePackedSamples : Obligations.StreamIsTheHeaderThenThePackedSamples := by
  intro impl n hB
  have hfile := map_range_streamByte impl n hB
  refine ⟨hfile, ?_⟩
  rw [← hfile, List.length_map, List.length_range, Snapshot.L, Snapshot.D]

end Sys2Proof.Machine
end

section
/-! A run whose sink takes a byte at every edge (R192, R196): the whole file, the end mark on its last byte alone. -/

namespace Sys2Proof.Machine

open Sys2Proof

variable {c : Params} {s t : State} {es rest : List Edge}

/-- The newest bytes the sink has are the whole file of a snapshot, the newest of them alone marked last. -/
def State.HasFile (impl : SineImpl) (n : Snapshot) (t : State) : Prop :=
  (t.taken.take n.L).reverse.map SinkByte.data = n.file impl
    ∧ (t.taken.take n.L).map SinkByte.last = true :: List.replicate (n.L - 1) false

/-- An edge of a sink that takes what is offered, with the next byte offered at once. -/
structure Edge.Taking (e : Edge) : Prop where
  rst : e.rst = false
  err : e.err = false
  ready : e.ready = true
  offer : e.offer = true

/-- No byte before the last is marked (R190). -/
theorem State.Inv.runBytes_last (h : s.Inv c) (hseq : s.seq = .stream) :
    (s.taken.take s.pos).map SinkByte.last = List.replicate s.pos false := by
  have hbytes := congrArg (List.map SinkByte.last) (h.bytesTaken hseq)
  rw [State.runBytes, List.map_reverse, List.map_map] at hbytes
  rw [List.reverse_eq_iff.mp hbytes]
  exact (congrArg List.reverse (List.map_const' ..)).trans (by simp)

/-- The last byte taken completes the file (R192). -/
theorem RunStep.of_last_byte (hrun : RunStep c s t) (h : s.Inv c) (hseq : s.seq = .stream) (hvalid : s.outValid = true)
    (he : s.nextEdge.Taking) (hlast : s.pos = s.snap.L - 1) :
    t.seq = .idle ∧ t.status.errcode = .none ∧ t.HasFile c.sine s.snap := by
  obtain ⟨hidle, _, _, hcode, _⟩ := hrun.ended (endsRun_iff.mpr (.inr ⟨hvalid, he.ready, hlast⟩))
  have hL : s.snap.L = s.pos + 1 := by have := h.position hseq; omega
  obtain ⟨hdata, _⟩ := hrun.runBytes_data h hseq
  rw [State.runBytes, hrun.pos_of_taken h hseq hvalid he.ready, ← hL,
    map_range_streamByte _ _ (h.streamValid hseq).2.B_pos] at hdata
  refine ⟨hidle, by simp [hcode, he.err], hdata, ?_⟩
  rw [(hrun.of_taken hvalid he.ready).1, takeByte_taken, hL, List.take_succ_cons, List.map_cons, h.runBytes_last hseq,
    offeredLast_iff.mpr hlast, Nat.add_sub_cancel]

/-- Any byte but the last taken leaves the run one byte further, with the next on offer (R191). -/
theorem RunStep.of_not_last_byte (hrun : RunStep c s t) (h : s.Inv c) (hseq : s.seq = .stream) (hvalid : s.outValid = true)
    (he : s.nextEdge.Taking) (hlast : s.pos ≠ s.snap.L - 1) :
    t.seq = .stream ∧ t.outValid = true ∧ t.pos = s.pos + 1 := by
  obtain ⟨hstream, hnext⟩ := hrun.goesOn (by simp [endsRun_iff, he.err, hlast])
  exact ⟨hstream, by simp [hnext, he.offer], hrun.pos_of_taken h hseq hvalid he.ready⟩

theorem run_succ_of_step (M : Host.Core) {s t : M.State} (h : M.step s = .next t) (k : Nat) :
    M.run (k + 1) s = M.run k t := by
  rw [Host.Core.run, h]

theorem core_run_succ (h : stepWith Config.device s = .next t) (k : Nat) : core.run (k + 1) s = core.run k t :=
  run_succ_of_step core ((step_eq_stepWith_device s).trans h) k

/-- By induction on the edges, one byte to each: the last byte falls at the last edge. -/
theorem run_of_taking_edges (h : s.Inv Config.device) (hseq : s.seq = .stream) (hvalid : s.outValid = true)
    (hedges : s.edges = es ++ rest) (hlength : es.length = s.snap.L - s.pos) (htaking : ∀ e ∈ es, e.Taking) :
    ∃ t, core.run es.length s = .next t ∧ t.seq = .idle ∧ t.status.errcode = .none ∧ t.edges = rest
      ∧ t.HasFile Config.device.sine s.snap := by
  have hpos := h.position hseq
  induction es generalizing s with
  | nil => simp at hlength; omega
  | cons e es ih =>
    have hnext : s.nextEdge = e := by simp [State.nextEdge, hedges]
    have he : s.nextEdge.Taking := hnext ▸ htaking e (by simp)
    obtain ⟨t, hstep, _⟩ := edgeStep_spec Config.device s.nextEdge s
    have hrun := stepWith_runStep he.rst hseq hstep
    have hrest : t.edges = es ++ rest := by rw [hrun.edges, hedges]; rfl
    rw [List.length_cons] at hlength ⊢
    rw [core_run_succ hstep]
    by_cases hlast : s.pos = s.snap.L - 1
    · obtain rfl : es = [] := List.length_eq_zero_iff.mp (by omega)
      obtain ⟨hidle, hcode, hfile⟩ := hrun.of_last_byte h hseq hvalid he hlast
      exact ⟨t, rfl, hidle, hcode, hrest, hfile⟩
    · obtain ⟨hstream, hoffered, hpos'⟩ := hrun.of_not_last_byte h hseq hvalid he hlast
      have hinv := everyStepKeepsTheInvariant _ s t h hstep
      rw [← hrun.snap]
      exact ih hinv hstream hoffered hrest (by rw [hrun.snap, hpos']; omega)
        (fun e' he' => htaking e' (List.mem_cons_of_mem _ he')) (hinv.position hstream)

/-- Settles O51: the edges are as many as the bytes left, and each takes one. -/
theorem readySinkGetsTheWholeFile : Obligations.ReadySinkGetsTheWholeFile := by
  intro s es rest h hseq hvalid hedges hlength hedge
  refine run_of_taking_edges h hseq hvalid hedges hlength fun e he => ?_
  obtain ⟨hrst, herr, hready, hoffer⟩ := hedge e he
  exact ⟨hrst, herr, hready, hoffer⟩

end Sys2Proof.Machine
end

section
/-! Two machines that differ in their lanes alone (R197): outside a run no lane works, and in a run the lanes change no byte. -/

namespace Sys2Proof.Machine

open Sys2Proof

variable {c c' : Params} {e : Edge} {s t : State} {lanes : List Lane} {lane : Option Nat}

/-- The state with other lanes: what the two machines of R197 differ in. -/
def State.withLanes (lanes : List Lane) (s : State) : State := { s with lanes := lanes }

/-- The edge with other progress of the lanes. -/
def Edge.withLane (lane : Option Nat) (e : Edge) : Edge := { e with lane := lane }

theorem present_withLanes (lanes : List Lane) (e : Edge) (s : State) :
    present e (s.withLanes lanes) = (present e s).withLanes lanes := by
  rw [present, present, apply_ite (State.withLanes lanes)]
  rfl

theorem plainWrite_withLanes (lanes : List Lane) (w : RegIndex) (v : Word) (s : State) :
    plainWrite w v (s.withLanes lanes) = (plainWrite w v s).withLanes lanes := by
  rw [plainWrite, plainWrite, apply_ite (State.withLanes lanes)]
  rfl

/-- The host's part of an edge neither looks at the lanes nor changes them. -/
theorem hostWrite_withLanes (lanes : List Lane) (impl : SineImpl) (e : Edge) (busyBefore : Bool) (s : State) :
    hostWrite (execWith impl) e busyBefore (s.withLanes lanes)
      = andThen (hostWrite (execWith impl) e busyBefore s) fun t => .next (t.withLanes lanes) := by
  unfold hostWrite
  split
  next w v =>
    rw [busWrite, busWrite, command, command, plainWrite_withLanes]
    split_ifs <;> rfl
  next => rfl
  next => rfl

/-- Outside a run the invariant leaves no lane at work, so two states of it that differ in the lanes alone are the same. -/
theorem State.Inv.withLanes_eq_self (h : s.Inv c) (h' : (s.withLanes lanes).Inv c') (hseq : s.seq ≠ .stream) :
    s.withLanes lanes = s := by
  have hnone : s.lanes = [] := (h.quiet hseq).2
  have hnone' : lanes = [] := (h'.quiet hseq).2
  rw [State.withLanes, hnone', ← hnone]

/-- The lanes of the invariant hold the generator's samples, so the ports are those of any lanes of it (R104, R197). -/
theorem State.Inv.ports_withLanes (hsine : c'.sine = c.sine) (h : s.Inv c) (h' : (s.withLanes lanes).Inv c') :
    (s.withLanes lanes).ports c'.sine = s.ports c.sine := by
  have hbyte : s.offeredByte c.sine = s.snap.streamByte c.sine s.pos := offeredByte_eq fun l hl => (h.laneSamples l hl).1
  have hbyte' : (s.withLanes lanes).offeredByte c'.sine = s.snap.streamByte c'.sine s.pos :=
    offeredByte_eq fun l hl => (h'.laneSamples l hl).1
  rw [State.ports, State.ports, hbyte, hbyte', hsine]
  rfl

/-- An edge of a run gives the sink the same byte and moves the run alike, whatever the lanes hold. -/
theorem State.Inv.afterByte_withLanes (hsine : c'.sine = c.sine) (h : s.Inv c) (h' : (s.withLanes lanes).Inv c') :
    ∃ lanes', afterByte c' (e.withLane lane) (s.withLanes lanes) = (afterByte c e s).withLanes lanes' := by
  refine ⟨(afterByte c' (e.withLane lane) (s.withLanes lanes)).lanes, ?_⟩
  rw [afterByte_eq c, afterByte_eq c']
  simp only [afterByte_taken, afterByte_progress, afterByte_outValid, h.ports_withLanes hsine h']
  rfl

theorem State.Inv.streamEdge_withLanes (hsine : c'.sine = c.sine) (h : s.Inv c) (h' : (s.withLanes lanes).Inv c') :
    ∃ lanes', streamEdge c' (e.withLane lane) (s.withLanes lanes) = (streamEdge c e s).withLanes lanes' := by
  obtain ⟨lanes', hafter⟩ := h.afterByte_withLanes (e := e) (lane := lane) hsine h'
  by_cases hend : endsRun e s
  · refine ⟨[], ?_⟩
    rw [streamEdge_of_end hend, streamEdge_of_end (s := s.withLanes lanes) (e := e.withLane lane) hend, hafter]
    rfl
  · refine ⟨lanes', ?_⟩
    rw [streamEdge_of_not_end hend, streamEdge_of_not_end (s := s.withLanes lanes) (e := e.withLane lane) hend, hafter]

theorem State.Inv.sequencerEdge_withLanes (hsine : c'.sine = c.sine) (h : s.Inv c) (h' : (s.withLanes lanes).Inv c')
    (hs : sequencerEdge c (execWith c.sine) e s = .next t) : ∃ lanes',
    sequencerEdge c' (execWith c'.sine) (e.withLane lane) (s.withLanes lanes) = .next (t.withLanes lanes') := by
  by_cases hseq : s.seq = .stream
  · obtain ⟨lanes', hrun⟩ := h.streamEdge_withLanes (e := e) (lane := lane) hsine h'
    rw [sequencerEdge, hseq] at hs
    cases hs
    refine ⟨lanes', ?_⟩
    rw [← hrun, sequencerEdge, show (s.withLanes lanes).seq = .stream from hseq]
  · refine ⟨t.lanes, ?_⟩
    rw [h.withLanes_eq_self h' hseq, hsine]
    unfold sequencerEdge at hs ⊢
    split at hs
    next => exact hs
    next => exact hs
    next hstream => exact absurd hstream hseq

/-- Settles O52: the parts of an edge in their order; its beginning and its end commute with the difference in the lanes. -/
theorem lanesAreUnobservable : Obligations.LanesAreUnobservable := by
  intro c c' e lane lanes s t hsine h h' hstep
  refine ⟨h.ports_withLanes hsine h', ?_⟩
  change ∃ t' : State, edgeStep c' _ (e.withLane lane) (s.withLanes lanes) = _ ∧ t'.withLanes t.lanes = t
  cases hrst : e.rst with
  | true =>
    rw [edgeStep_of_rst hrst] at hstep
    cases hstep
    exact ⟨resetEdge e s, edgeStep_of_rst (e := e.withLane lane) hrst, rfl⟩
  | false =>
    obtain ⟨s1, hs, _⟩ := sequencerEdge_spec c e (beginEdge e s)
    obtain ⟨lanes', hs'⟩ := (beginEdge_inv h).sequencerEdge_withLanes (lane := lane) hsine
      (beginEdge_inv (e := e) h') hs
    rw [edgeStep_eq_hostWrite hrst hs] at hstep
    refine ⟨t.withLanes lanes', ?_, rfl⟩
    rw [edgeStep_eq_hostWrite (e := e.withLane lane) (s := s.withLanes lanes) hrst hs']
    change hostWrite _ e s.busy (present e (s1.withLanes lanes')) = _
    rw [present_withLanes, hsine, hostWrite_withLanes, hstep, andThen_next]

end Sys2Proof.Machine
end

section
/-! Command control (R180–R188): dropping, acceptance, NOP, the checks of START, and the step that runs a command. -/

namespace Sys2Proof.Machine

open Sys2Proof

variable {c : Params} {i : Instr} {s : State} {v : Word} {completion : Bool} {cause : ErrCause}
variable {ex : Instr → State → Outcome State Fault Refusal}

/-! ### The CMD write (R180–R182, R184) -/

theorem busWrite_cmd_of_busy (h : s.seq ≠ .idle) : busWrite ex s.busy completion 1 v s = .next (drop s) := by
  rw [busy_eq_true h]
  rfl

theorem busWrite_cmd_of_nop (h : s.seq = .idle) (hv : decode v = .command .nop) :
    busWrite ex s.busy completion 1 v s = ex .nop s := by
  rw [busy_eq_false_iff.mpr h]
  exact if_pos hv

theorem busWrite_cmd_of_idle (h : s.seq = .idle) (hv : decode v ≠ .command .nop) :
    busWrite ex s.busy completion 1 v s = .next (accept v s) := by
  rw [busy_eq_false_iff.mpr h]
  exact if_neg hv

/-- Settles O5: the CMD write of a BUSY block is a drop. -/
theorem cmdWriteWhileBusyIsDropped : Obligations.CmdWriteWhileBusyIsDropped := fun _ _ _ h => busWrite_cmd_of_busy h

/-- Settles O6: every word but NOP's is accepted, and START's word is 1. -/
theorem cmdWriteWhileIdleIsAccepted : Obligations.CmdWriteWhileIdleIsAccepted := by
  intro s v hidle hv
  have hstart : decode v = .command .start ↔ v = 1 := decode_eq_command_iff
  rw [busWrite_cmd_of_idle hidle (mt eq_zero_of_decode_nop hv), accept, if_congr hstart rfl rfl]
  rfl

/-- Settles O7: the word of NOP is run at its write, and its execution is nothing. -/
theorem nopHasNoEffect : Obligations.NopHasNoEffect :=
  ⟨rfl, fun _ => rfl, fun _ h => busWrite_cmd_of_nop h (decode_encode .nop), fun _ _ h => busWrite_cmd_of_busy h⟩

/-! ### START (R185–R188) -/

theorem exec_start_of_pass (h : firstFailing (startChecks s.snap) = none) : exec .start s = .next
    { s with header := headerWindow s.snap.headerBytes, seq := .stream, outValid := false, lanes := [] } := by
  rw [exec, execStart, h]

theorem exec_start_of_fail (h : firstFailing (startChecks s.snap) = some cause) :
    exec .start s = .next (raise cause s) := by
  rw [exec, execStart, h]

/-- Settles O14: a legal width fits the field of the window's word 8. -/
theorem startWritesTheWindowAndStreams : Obligations.StartWritesTheWindowAndStreams := by
  intro s h
  have hB := Snapshot.B_le_four h.1
  have hwindow := headerWindow_headerBytes s.snap.sr s.snap.bits s.snap.B s.snap.D (by omega)
  have hword : BitVec.ofNat 32 s.snap.sr = s.snap.conf.sampleRate := by simp [Snapshot.sr]
  rw [exec_start_of_pass ((startChecks_none_iff _).mpr h), Snapshot.headerBytes, hwindow, hword]

/-- The check START reports: each one only where the earlier ones pass (R185, R227). -/
theorem firstFailing_startChecks (n : Snapshot) : firstFailing (startChecks n) =
    if ¬(n.bits = 8 ∨ n.bits = 16 ∨ n.bits = 24 ∨ n.bits = 32) then some .bitsIllegal
    else if n.sr = 0 then some .rateZero
    else if n.N = 0 then some .countZero
    else if ¬2 * n.f ≤ n.sr then some .nyquist
    else if ¬n.N * (n.bits / 8) ≤ 0xFFFFFFDB then some .sizeOverflow
    else if ¬n.sr * (n.bits / 8) ≤ 0xFFFFFFFF then some .rateOverflow
    else none := by
  simp only [startChecks, checkBits, checkRate, checkCount, checkNyquist, checkSize, checkByteRate, firstFailing_cons,
    firstFailing_nil, ← legalBits_iff, Bool.not_eq_true', Bool.not_eq_true, beq_iff_eq, decide_eq_true_eq, not_le]
  rfl

/-- Settles O15: the clauses are the branches of `firstFailing_startChecks`. -/
theorem startFailsAtItsFirstFailingCheck : Obligations.StartFailsAtItsFirstFailingCheck := by
  intro s
  dsimp only
  have fails (cause : ErrCause) (h : firstFailing (startChecks s.snap) = some cause) :
      exec .start s = .next (raise cause s) := exec_start_of_fail h
  rw [firstFailing_startChecks] at fails
  refine ⟨fun hbits => fails .bitsIllegal ?_, fun hbits hrate => fails .rateZero ?_,
    fun hbits hrate hcount => fails .countZero ?_, fun hbits hrate hcount hnyquist => fails .nyquist ?_,
    fun hbits hrate hcount hnyquist hsize => fails .sizeOverflow ?_,
    fun hbits hrate hcount hnyquist hsize hbyteRate => fails .rateOverflow ?_⟩
  · rw [if_pos hbits]
  · rw [if_neg (not_not.mpr hbits), if_pos (not_not.mp hrate)]
  · rw [if_neg (not_not.mpr hbits), if_neg hrate, if_pos (not_not.mp hcount)]
  · rw [if_neg (not_not.mpr hbits), if_neg hrate, if_neg hcount, if_pos hnyquist]
  · rw [if_neg (not_not.mpr hbits), if_neg hrate, if_neg hcount, if_neg (not_not.mpr hnyquist), if_pos hsize]
  · rw [if_neg (not_not.mpr hbits), if_neg hrate, if_neg hcount, if_neg (not_not.mpr hnyquist), if_neg (not_not.mpr hsize),
      if_pos hbyteRate]

/-! ### The step that runs a command (R183, R229) -/

/-- In EXEC a step that the sequencer takes is the execution of the snapshot's word, the offer and the host's write. -/
theorem stepWith_of_exec (hrst : s.nextEdge.rst = false) (hseq : s.seq = .exec) (hgo : s.nextEdge.go = true) :
    stepWith c s = andThen (runCommand (execWith c.sine) (beginEdge s.nextEdge s)) fun t =>
      hostWrite (execWith c.sine) s.nextEdge true (present s.nextEdge t) := by
  have hs : sequencerEdge c (execWith c.sine) s.nextEdge (beginEdge s.nextEdge s)
      = runCommand (execWith c.sine) (beginEdge s.nextEdge s) := by
    rw [sequencerEdge, beginEdge_seq, hseq]
    exact if_pos hgo
  rw [stepWith, edgeStep, hrst, hs, busy_eq_true (by simp [hseq])]
  rfl

theorem stepWith_of_exec_command (hrst : s.nextEdge.rst = false) (hseq : s.seq = .exec) (hgo : s.nextEdge.go = true)
    (hd : decode s.snap.word = .command i) :
    stepWith c s = andThen (execWith c.sine i (beginEdge s.nextEdge s)) fun t =>
      hostWrite (execWith c.sine) s.nextEdge true (present s.nextEdge t) := by
  rw [stepWith_of_exec hrst hseq hgo, runCommand, beginEdge_snap, hd]

/-- NOP is run by the host write of an idle block's step (R180, R184). -/
theorem stepWith_of_nop (hrst : s.nextEdge.rst = false) (hidle : s.seq = .idle) (ha : s.nextEdge.access = .write 1 v)
    (hv : decode v = .command .nop) : stepWith c s = execWith c.sine .nop (beginEdge s.nextEdge s) := by
  rw [stepWith, edgeStep_eq_hostWrite hrst (sequencerEdge_of_idle hidle), hostWrite_of_write ha,
    present_of_ne_stream (by simp [hidle])]
  exact busWrite_cmd_of_nop (s := beginEdge s.nextEdge s) hidle hv

/-- Settles O35: the default machine's clauses are those of the machine with its parameters. -/
theorem stepRunsTheDecodedCommand : Obligations.StepRunsTheDecodedCommand := by
  have hexec : execWith Config.device.sine = exec := funext₂ execWith_device
  refine ⟨fun c s i => stepWith_of_exec_command, fun s i hrst hseq hgo hd => ?_, fun c s why hrst hseq hgo hd => ?_,
    fun c s v => stepWith_of_nop, fun s v hrst hidle ha hv => ?_⟩
  · rw [step_eq_stepWith_device, ← hexec]
    exact stepWith_of_exec_command hrst hseq hgo hd
  · rw [stepWith_of_exec hrst hseq hgo, runCommand, beginEdge_snap, hd, execIllegal, andThen_next,
      present_of_ne_stream (by simp [raise])]
    rfl
  · rw [step_eq_stepWith_device, ← hexec]
    exact stepWith_of_nop hrst hidle ha hv

end Sys2Proof.Machine
end

section
/-! Exceptions (R222, R229, R231): the completion in STATUS, the illegal word's way to it, and the step that never stops. -/

namespace Sys2Proof.Machine

open Sys2Proof

variable {i : Instr} {s : State} {v : Word} {ex : Instr → State → Outcome State Fault Refusal}

/-! ### Completion (R222) -/

theorem busRead_status_complete (code : ErrCode) (cause : ErrCause) (s : State) :
    busRead (complete code cause s) 2 = (s.status.completed code cause).toWord false := busRead_status _

/-- Settles O9: `complete` writes DONE, the code, the cause and IDLE, and STATUS reads them through `Status.toWord`. -/
theorem completionIsReportedInStatus : Obligations.CompletionIsReportedInStatus := fun code cause _ s =>
  ⟨busy_eq_false_iff.mpr (complete_seq code cause s), complete_outValid code cause s,
    busRead_status_complete code cause s, rfl⟩

/-! ### The illegal word (R84, R229) -/

theorem encode_toNat_lt_five (i : Instr) : (encode i).toNat < 5 := by
  cases i <;> decide

/-- A word of 5 or more is not the encoding of any command (R82). -/
theorem decode_ne_command_of_five_le (hv : 5 ≤ v.toNat) : decode v ≠ .command i := by
  intro hd
  have hlt := encode_toNat_lt_five i
  rw [← decode_eq_command_iff.mp hd] at hlt
  omega

theorem runCommand_of_ne_command (h : ∀ i, decode s.snap.word ≠ .command i) :
    runCommand ex s = .next (raise .badOpcode s) := by
  rw [runCommand]
  cases hd : decode s.snap.word with
  | command i => exact absurd hd (h i)
  | illegal why => rfl

theorem accept_progress_of_ne_start (h : decode v ≠ .command .start) : (accept v s).progress = s.progress := if_neg h

/-- Settles O8: a word of 5 or more is no command, so it is neither NOP nor START at its write, and its execution step
raises BAD_OPCODE. -/
theorem illegalWordCompletesWithBadOpcode : Obligations.IllegalWordCompletesWithBadOpcode := by
  intro s v hidle hv
  have hillegal : ∀ i, decode v ≠ .command i := fun i => decode_ne_command_of_five_le hv
  exact ⟨busWrite_cmd_of_idle hidle (hillegal .nop), runCommand_of_ne_command hillegal,
    accept_progress_of_ne_start (hillegal .start)⟩

/-! ### No trap and no refusal (R231, R234) -/

/-- Settles O33: each part of an edge answers a next state, whatever the parameters. -/
theorem everyStepAnswersNext : Obligations.EveryStepAnswersNext := fun c s =>
  (edgeStep_spec c s.nextEdge s).imp fun _ h => h.1

end Sys2Proof.Machine
end

section
/-! Reset (R250, R251) and the edge at which a command completes (R228, R262). -/

namespace Sys2Proof.Machine

open Sys2Proof

variable {impl : SineImpl} {c : Params} {i : Instr} {e : Edge} {s t : State} {w : RegIndex}

/-! ### A completion and the host's access at its edge (R262) -/

/-- An execution step that leaves EXEC for IDLE is a completion; NOP's stays where it was (R184). -/
theorem ExecCase.done_of_idle (ht : ExecCase impl s i t) (hbusy : s.seq ≠ .idle) (hidle : t.seq = .idle) :
    t.status.done = true := by
  cases ht with
  | nop => exact absurd hidle hbusy
  | start _ => cases hidle
  | failed _ _ _ | sample _ | header | pack => rfl

theorem streamEdge_done_of_idle (hbusy : s.seq ≠ .idle) (hidle : (streamEdge c e s).seq = .idle) :
    (streamEdge c e s).status.done = true := by
  by_cases hend : endsRun e s
  · rw [streamEdge_of_end hend]
    rfl
  · rw [streamEdge_of_not_end hend, afterByte_seq] at hidle
    exact absurd hidle hbusy

/-- The sequencer goes back to IDLE by a completion alone (R199, R222). -/
theorem SequencerCase.done_of_idle (hs : SequencerCase c e s t) (hbusy : s.seq ≠ .idle) (hidle : t.seq = .idle) :
    t.status.done = true := by
  cases hs with
  | idle h => exact absurd h hbusy
  | waits _ _ => exact absurd hidle hbusy
  | command _ _ _ ht => exact ht.done_of_idle hbusy hidle
  | illegal _ _ _ => rfl
  | stream _ => exact streamEdge_done_of_idle hbusy hidle

/-- Settles O41: the sequencer sets DONE, no host access to a BUSY block clears it at the edge of a completion (`HostFrame`),
and a CMD write is dropped as at any edge of a BUSY block. -/
theorem completionWinsOverHostWrites : Obligations.CompletionWinsOverHostWrites := by
  intro c s t hrst hbusy hstep hidle
  obtain ⟨s1, hs, hh⟩ := stepWith_parts hrst hstep
  rw [busy_eq_true hbusy] at hh
  have hidle1 : s1.seq = .idle := by rw [← hidle, hh.frame.seq, present_seq]
  have hdone : t.status.done = true := by
    rw [hh.frame.done (by rw [present_seq, hidle1]), present_status]
    exact hs.done_of_idle hbusy hidle1
  refine ⟨hdone, ?_, fun v ha => ?_⟩
  · simp [State.ports, State.irq, hdone]
  · rw [dropFollowsItsTwoWrites c s t hrst hstep, ha]
    exact if_pos ⟨rfl, hbusy⟩

/-! ### Reset (R250, R251) -/

/-- From word 16 on the window is the cleared header; of the sixteen words below it FMT_CONST alone is not 0 (R44, R250). -/
theorem busRead_reset (w : RegIndex) : busRead State.reset w = if w = 15 then fmtConst else 0 := by
  by_cases hw : 16 ≤ w.toNat
  · have hne : w ≠ 15 := by
      rintro rfl
      exact absurd hw (by decide)
    rw [busRead_of_sixteen_le _ hw, if_neg hne]
    simp only [State.reset, Vector.getElem?_replicate]
    split <;> rfl
  · revert w
    decide

/-- Settles O31: the words by `busRead_reset`, the outputs and the snapshot by the reset state itself. -/
theorem resetValues : Obligations.ResetValues := ⟨busRead_reset, rfl, rfl, rfl, rfl, rfl, rfl⟩

/-- A read at a reset edge returns the reset value of its word (R250). -/
theorem resetEdge_readData_of_read (ha : e.access = .read w) (s : State) :
    (resetEdge e s).readData = some (busRead State.reset w) := by
  rw [resetEdge, readValue, ha]

/-- Settles O32: the edge is `resetEdge`, which looks at the edge's read alone. -/
theorem resetWinsOverEverything : Obligations.ResetWinsOverEverything := fun _ s hrst =>
  ⟨resetEdge s.nextEdge s, edgeStep_of_rst hrst, rfl, fun _ ha => resetEdge_readData_of_read ha s⟩

/-- Settles O53: after reset the block is idle, with nothing streamed, nothing on offer and no lane at work. -/
theorem resetSatisfiesTheInvariant : Obligations.ResetSatisfiesTheInvariant := fun _ =>
  .of_idle rfl rfl Progress.zero_headerFirst rfl rfl

end Sys2Proof.Machine
end
